-- ==== Sys2Proof/Word.lean ====
section
/-! DEFINITION. The word and byte types (spec/00_scope.md R7, R8). -/

namespace Sys2Proof

/-- `bits32` of R8: a 32-bit word. Its `+` and `-` are modulo 2^32, `toNat` is `uint`, `toInt` is `sint`. -/
abbrev Word := BitVec 32

/-- A 64-bit word: the width of CNT and CMP (R35). -/
abbrev DWord := BitVec 64

/-- One byte of a byte-level program image (R53). -/
abbrev Byte := BitVec 8

end Sys2Proof
end

