-- ==== Sys2Proof/Config.lean ====
section
/-! DEFINITION. The parameters the spec says a model takes (R6, INDEX.md). Their chosen values stand in
Machine/Params.lean. The spec leaves no value of an instruction undefined (R136, X1 to X15), so the model has no
free value. The third parameter, the program image `imem`, is the field `imem` of State (log 1). -/

namespace Sys2Proof

/-- `r15DestPolicy` of R134: what becomes of a data write to register index 15. -/
inductive R15DestPolicy where
  /-- the write is made and then overwritten by `pc0 + 4` (the spec's default) -/
  | supersede
  /-- the next `pc` is `align4(r) + 4` -/
  | writeThenAdvance
  /-- the word has no meaning -/
  | refuse
deriving DecidableEq, Repr

/-- `imageEndian` of R53: the byte order of a program image given as bytes. -/
inductive Endian where
  /-- the first byte is bits 7 to 0 (the spec's default) -/
  | little
  /-- the first byte is bits 31 to 24 -/
  | big
deriving DecidableEq, Repr

/-- The named parameters of R6 with more than one value. -/
structure Config where
  r15DestPolicy : R15DestPolicy
  imageEndian : Endian
deriving DecidableEq, Repr

end Sys2Proof
end

