-- ==== Sys2Proof/Machine/Params.lean ====
section
/-! DEFINITION. The values the model gives the parameters of Config.lean: the defaults of R6. -/

namespace Sys2Proof.Machine

/-- DESIGN CHOICE (the spec's own defaults, D4 and D7; both unsafe: logs 5 and 4). -/
def params : Config := { r15DestPolicy := .supersede, imageEndian := .little }

/-- The exception vector offset of the supervisor call (R203). -/
def svcOffset : Word := 0x08#32

/-- The vector offset of reset (R203, R233). -/
def resetOffset : Word := 0x00#32

end Sys2Proof.Machine
end

