-- ==== Sys2Proof/Machine/Bits.lean ====
section
/-! DEFINITION. Bit-field, extension and byte-order helpers (R9, R53, R160). -/

namespace Sys2Proof.Machine

/-- `align4` of R9: clears the low 2 bits. -/
def align4 (w : Word) : Word := w &&& 0xFFFFFFFC#32

/-- `align1K` of R9: clears the low 10 bits. -/
def align1K (w : Word) : Word := w &&& 0xFFFFFC00#32

/-- `zext_32` of an immediate (R9, R76). DESIGN CHOICE of the spec (D3; unsafe: log 7). -/
def zext32 (imm : BitVec 12) : Word := imm.setWidth 32

/-- The branch displacement of R160: sign-extended first to 16 and then to 32 bits, then shifted left by 2. DEDUCED by
the spec that this truncates nothing (C2; unsafe: log 20). -/
def branchDisp (imm : BitVec 12) : Word := (imm.signExtend 16).signExtend 32 <<< 2

/-- The word that four bytes at rising addresses make up, in the byte order `e` (R53). -/
def wordOfBytes (e : Endian) (b0 b1 b2 b3 : Byte) : Word :=
  match e with
  | .little => b0.setWidth 32 ||| b1.setWidth 32 <<< 8 ||| b2.setWidth 32 <<< 16 ||| b3.setWidth 32 <<< 24
  | .big => b3.setWidth 32 ||| b2.setWidth 32 <<< 8 ||| b1.setWidth 32 <<< 16 ||| b0.setWidth 32 <<< 24

/-- The byte that the word `w` has at offset `k` (0 to 3) of its four addresses, in the byte order `e` (R53). -/
def byteOfWord (e : Endian) (w : Word) (k : Nat) : Byte :=
  match e with
  | .little => w.extractLsb' (8 * k) 8
  | .big => w.extractLsb' (8 * (3 - k)) 8

end Sys2Proof.Machine
end

