-- ==== Sys2Proof/Syntax.lean ====
section
/-! DEFINITION. The decoded instruction record (R72) and the instructions, one constructor per row of
spec/opcode_table.json (R78). An instruction keeps the fields R75 says it uses and no others. -/

namespace Sys2Proof

/-- The sixteen conditions of R104, by the suffixes of R82. -/
inductive Cond where
  | eq | ne | cs | cc | mi | pl | vs | vc | hi | ls | ge | lt | gt | le | al | nv
deriving DecidableEq, Repr

/-- The five instruction classes (R73). -/
inductive InstrClass where
  | alu | mulDiv | loadStore | branch | system
deriving DecidableEq, Repr

/-- The decoded instruction of R72: the raw word and the fields of R71, every one extracted from every word. -/
structure Decoded where
  raw : Word
  cond : Cond
  cls : InstrClass
  opcode : BitVec 4
  s : Bool
  rn : Nat
  rd : Nat
  rm : Nat
  imm12 : BitVec 12
deriving DecidableEq, Repr

/-- The instructions (R78). Register fields are indices: 0 to 12 are r0 to r12, 13 is sp, 14 lr, 15 pc (R20); the
index is any number, as in the register access of R23 and R24, and WellFormed.lean bounds it (log 15). `f` is the
flag-update bit S. -/
inductive Instr where
  | add (c : Cond) (f : Bool) (rd rn : Nat) (imm : BitVec 12)
  | sub (c : Cond) (f : Bool) (rd rn : Nat) (imm : BitVec 12)
  | and (c : Cond) (f : Bool) (rd rn rm : Nat)
  | orr (c : Cond) (f : Bool) (rd rn rm : Nat)
  | eor (c : Cond) (f : Bool) (rd rn rm : Nat)
  | mov (c : Cond) (f : Bool) (rd : Nat) (imm : BitVec 12)
  | mvn (c : Cond) (f : Bool) (rd rm : Nat)
  | tst (c : Cond) (rn rm : Nat)
  | cmp (c : Cond) (rn rm : Nat)
  | aluUndef9 (c : Cond)
  | aluUndefA (c : Cond)
  | aluUndefB (c : Cond)
  | aluUndefC (c : Cond)
  | aluUndefD (c : Cond)
  | aluUndefE (c : Cond)
  | aluUndefF (c : Cond)
  | muldiv (c : Cond)
  | ldst (c : Cond)
  | b (c : Cond) (imm : BitVec 12)
  | bl (c : Cond) (imm : BitVec 12)
  | mrs (c : Cond) (rd : Nat)
  | msr (c : Cond) (rn : Nat)
  | svc (c : Cond)
  | eret (c : Cond)
  | sysNop4 (c : Cond)
  | sysNop5 (c : Cond)
  | sysNop6 (c : Cond)
  | sysNop7 (c : Cond)
  | sysNop8 (c : Cond)
  | sysNop9 (c : Cond)
  | sysNopA (c : Cond)
  | sysNopB (c : Cond)
  | sysNopC (c : Cond)
  | sysNopD (c : Cond)
  | sysNopE (c : Cond)
  | sysNopF (c : Cond)
deriving DecidableEq, Repr

/-- The condition field of an instruction: every instruction has one (R103). -/
def Instr.cond : Instr → Cond
  | .add c _ _ _ _ | .sub c _ _ _ _ | .and c _ _ _ _ | .orr c _ _ _ _ | .eor c _ _ _ _ => c
  | .mov c _ _ _ | .mvn c _ _ _ | .tst c _ _ | .cmp c _ _ => c
  | .aluUndef9 c | .aluUndefA c | .aluUndefB c | .aluUndefC c | .aluUndefD c | .aluUndefE c | .aluUndefF c => c
  | .muldiv c | .ldst c | .b c _ | .bl c _ | .mrs c _ | .msr c _ | .svc c | .eret c => c
  | .sysNop4 c | .sysNop5 c | .sysNop6 c | .sysNop7 c | .sysNop8 c | .sysNop9 c => c
  | .sysNopA c | .sysNopB c | .sysNopC c | .sysNopD c | .sysNopE c | .sysNopF c => c

/-- The register an instruction names as its destination, where it names one (R75). -/
def Instr.destination : Instr → Option Nat
  | .add _ _ rd _ _ | .sub _ _ rd _ _ | .and _ _ rd _ _ | .orr _ _ rd _ _ | .eor _ _ rd _ _ => some rd
  | .mov _ _ rd _ | .mvn _ _ rd _ | .mrs _ rd => some rd
  | .tst _ _ _ | .cmp _ _ _ | .muldiv _ | .ldst _ | .b _ _ | .bl _ _ | .msr _ _ | .svc _ | .eret _ => none
  | .aluUndef9 _ | .aluUndefA _ | .aluUndefB _ | .aluUndefC _ | .aluUndefD _ | .aluUndefE _ | .aluUndefF _ => none
  | .sysNop4 _ | .sysNop5 _ | .sysNop6 _ | .sysNop7 _ | .sysNop8 _ | .sysNop9 _ => none
  | .sysNopA _ | .sysNopB _ | .sysNopC _ | .sysNopD _ | .sysNopE _ | .sysNopF _ => none

/-- The opcode table's name of an instruction (spec/opcode_table.json; the names are the spec's, D2). -/
def Instr.mnemonic : Instr → String
  | .add .. => "ADD" | .sub .. => "SUB" | .and .. => "AND" | .orr .. => "ORR" | .eor .. => "EOR"
  | .mov .. => "MOV" | .mvn .. => "MVN" | .tst .. => "TST" | .cmp .. => "CMP"
  | .aluUndef9 _ => "ALU_UNDEF_9" | .aluUndefA _ => "ALU_UNDEF_A" | .aluUndefB _ => "ALU_UNDEF_B"
  | .aluUndefC _ => "ALU_UNDEF_C" | .aluUndefD _ => "ALU_UNDEF_D" | .aluUndefE _ => "ALU_UNDEF_E"
  | .aluUndefF _ => "ALU_UNDEF_F"
  | .muldiv _ => "MULDIV" | .ldst _ => "LDST" | .b .. => "B" | .bl .. => "BL"
  | .mrs .. => "MRS" | .msr .. => "MSR" | .svc _ => "SVC" | .eret _ => "ERET"
  | .sysNop4 _ => "SYS_NOP_4" | .sysNop5 _ => "SYS_NOP_5" | .sysNop6 _ => "SYS_NOP_6" | .sysNop7 _ => "SYS_NOP_7"
  | .sysNop8 _ => "SYS_NOP_8" | .sysNop9 _ => "SYS_NOP_9" | .sysNopA _ => "SYS_NOP_A" | .sysNopB _ => "SYS_NOP_B"
  | .sysNopC _ => "SYS_NOP_C" | .sysNopD _ => "SYS_NOP_D" | .sysNopE _ => "SYS_NOP_E" | .sysNopF _ => "SYS_NOP_F"

end Sys2Proof
end

