-- ==== Sys2Proof/WellFormed.lean ====
section
/-! DEFINITION. Well-formed instructions: every register index fits its 4-bit field (R77). Conditions, flag-update
bits and immediates are exact by their types. -/

namespace Sys2Proof

/-- A register index that a 4-bit field can hold (R77). -/
def regOk (i : Nat) : Bool := decide (i < 16)

/-- Every register field of the instruction is an index 0 to 15. -/
def Instr.wellFormed : Instr → Bool
  | .add _ _ rd rn _ | .sub _ _ rd rn _ => regOk rd && regOk rn
  | .and _ _ rd rn rm | .orr _ _ rd rn rm | .eor _ _ rd rn rm => regOk rd && regOk rn && regOk rm
  | .mov _ _ rd _ => regOk rd
  | .mvn _ _ rd rm => regOk rd && regOk rm
  | .tst _ rn rm | .cmp _ rn rm => regOk rn && regOk rm
  | .mrs _ rd => regOk rd
  | .msr _ rn => regOk rn
  | .aluUndef9 _ | .aluUndefA _ | .aluUndefB _ | .aluUndefC _ | .aluUndefD _ | .aluUndefE _ | .aluUndefF _ => true
  | .muldiv _ | .ldst _ | .b _ _ | .bl _ _ | .svc _ | .eret _ => true
  | .sysNop4 _ | .sysNop5 _ | .sysNop6 _ | .sysNop7 _ | .sysNop8 _ | .sysNop9 _ => true
  | .sysNopA _ | .sysNopB _ | .sysNopC _ | .sysNopD _ | .sysNopE _ | .sysNopF _ => true

/-- The same check as a proposition. -/
abbrev WellFormed (i : Instr) : Prop := i.wellFormed = true

end Sys2Proof
end

