-- ==== Sys2Proof/Decode.lean ====
section
/-! DEFINITION. The decoder (R70 to R80) and the encoder (R81, R84, R85). -/

namespace Sys2Proof
open Sys2Proof.Machine

/-! ## The decoder -/

/-- The condition a 4-bit code stands for; the last arm is 0xF, the one code left. PRESUMED by the spec: R104's numbering
(D1, G1; unsafe: log 6). -/
def condOfCode (k : BitVec 4) : Cond :=
  match k with
  | 0x0#4 => .eq | 0x1#4 => .ne | 0x2#4 => .cs | 0x3#4 => .cc
  | 0x4#4 => .mi | 0x5#4 => .pl | 0x6#4 => .vs | 0x7#4 => .vc
  | 0x8#4 => .hi | 0x9#4 => .ls | 0xA#4 => .ge | 0xB#4 => .lt
  | 0xC#4 => .gt | 0xD#4 => .le | 0xE#4 => .al | _ => .nv

/-- The class that bits 27 to 25 stand for (R73): every pattern but 0 to 3 is the System class. -/
def classOf (k : BitVec 3) : InstrClass :=
  match k with
  | 0#3 => .alu | 1#3 => .mulDiv | 2#3 => .loadStore | 3#3 => .branch | _ => .system

/-- Field extraction (R71). -/
def decodeFields (w : Word) : Decoded where
  raw := w
  cond := condOfCode (w.extractLsb' 28 4)
  cls := classOf (w.extractLsb' 25 3)
  opcode := w.extractLsb' 21 4
  s := w.getLsbD 20
  rn := (w.extractLsb' 16 4).toNat
  rd := (w.extractLsb' 12 4).toNat
  rm := (w.extractLsb' 0 4).toNat
  imm12 := w.extractLsb' 0 12

/-- The ALU class by opcode (R78); the last arm is 0xF, the one opcode left. -/
def aluInstr (d : Decoded) : Instr :=
  match d.opcode with
  | 0x0#4 => .add d.cond d.s d.rd d.rn d.imm12
  | 0x1#4 => .sub d.cond d.s d.rd d.rn d.imm12
  | 0x2#4 => .and d.cond d.s d.rd d.rn d.rm
  | 0x3#4 => .orr d.cond d.s d.rd d.rn d.rm
  | 0x4#4 => .eor d.cond d.s d.rd d.rn d.rm
  | 0x5#4 => .mov d.cond d.s d.rd d.imm12
  | 0x6#4 => .mvn d.cond d.s d.rd d.rm
  | 0x7#4 => .tst d.cond d.rn d.rm
  | 0x8#4 => .cmp d.cond d.rn d.rm
  | 0x9#4 => .aluUndef9 d.cond
  | 0xA#4 => .aluUndefA d.cond
  | 0xB#4 => .aluUndefB d.cond
  | 0xC#4 => .aluUndefC d.cond
  | 0xD#4 => .aluUndefD d.cond
  | 0xE#4 => .aluUndefE d.cond
  | _ => .aluUndefF d.cond

/-- The System class by opcode (R78, R170); the last arm is 0xF, the one opcode left. -/
def systemInstr (d : Decoded) : Instr :=
  match d.opcode with
  | 0x0#4 => .mrs d.cond d.rd
  | 0x1#4 => .msr d.cond d.rn
  | 0x2#4 => .svc d.cond
  | 0x3#4 => .eret d.cond
  | 0x4#4 => .sysNop4 d.cond
  | 0x5#4 => .sysNop5 d.cond
  | 0x6#4 => .sysNop6 d.cond
  | 0x7#4 => .sysNop7 d.cond
  | 0x8#4 => .sysNop8 d.cond
  | 0x9#4 => .sysNop9 d.cond
  | 0xA#4 => .sysNopA d.cond
  | 0xB#4 => .sysNopB d.cond
  | 0xC#4 => .sysNopC d.cond
  | 0xD#4 => .sysNopD d.cond
  | 0xE#4 => .sysNopE d.cond
  | _ => .sysNopF d.cond

/-- The row of the opcode map (R78) that a decoded record belongs to, with the fields R75 says it uses. -/
def instrOf (d : Decoded) : Instr :=
  match d.cls with
  | .alu => aluInstr d
  | .mulDiv => .muldiv d.cond
  | .loadStore => .ldst d.cond
  | .branch => if d.s then .bl d.cond d.imm12 else .b d.cond d.imm12
  | .system => systemInstr d

/-- The instruction of a word: total, no word is illegal (R74, R79). -/
def decode (w : Word) : Instr := instrOf (decodeFields w)

/-- Why a byte string holds no instruction. -/
inductive DecodeError where
  /-- fewer than the four bytes of one instruction (R70); no fetch of the machine raises it -/
  | truncated
deriving DecidableEq, Repr

/-- The first instruction of a byte string in image order (R53), with the bytes after it. -/
def decodeBytes (bs : List Byte) : Except DecodeError (Instr × List Byte) :=
  match bs with
  | b0 :: b1 :: b2 :: b3 :: rest => .ok (decode (wordOfBytes params.imageEndian b0 b1 b2 b3), rest)
  | _ => .error .truncated

/-- The four bytes of a word in image order (R53). -/
def bytesOf (w : Word) : List Byte :=
  [byteOfWord params.imageEndian w 0, byteOfWord params.imageEndian w 1,
   byteOfWord params.imageEndian w 2, byteOfWord params.imageEndian w 3]

/-- The instruction the decoder reads from the opcode table's word `w` of `nbits` bits (one 32-bit word, R70). -/
def decodeTableWord (nbits w : Nat) : Option Instr :=
  match decodeBytes (bytesOf (BitVec.ofNat 32 (w % 2 ^ nbits))) with
  | .ok (i, _) => some i
  | .error _ => none

/-! ## The encoder -/

/-- The 4-bit code of a condition (R104; log 6). -/
def Cond.code : Cond → BitVec 4
  | .eq => 0x0#4 | .ne => 0x1#4 | .cs => 0x2#4 | .cc => 0x3#4
  | .mi => 0x4#4 | .pl => 0x5#4 | .vs => 0x6#4 | .vc => 0x7#4
  | .hi => 0x8#4 | .ls => 0x9#4 | .ge => 0xA#4 | .lt => 0xB#4
  | .gt => 0xC#4 | .le => 0xD#4 | .al => 0xE#4 | .nv => 0xF#4

/-- The assembler encoding function of R84 for field values within their widths. -/
def encodeFields (cond : BitVec 4) (cls : BitVec 3) (opcode : BitVec 4) (s : Bool) (rn rd : BitVec 4)
    (low12 : BitVec 12) : Word :=
  cond.setWidth 32 <<< 28 ||| cls.setWidth 32 <<< 25 ||| opcode.setWidth 32 <<< 21
    ||| (BitVec.ofBool s).setWidth 32 <<< 20 ||| rn.setWidth 32 <<< 16 ||| rd.setWidth 32 <<< 12
    ||| low12.setWidth 32

/-- A register index as its 4-bit field (R77). -/
def regField (i : Nat) : BitVec 4 := BitVec.ofNat 4 i

/-- A source-B register index as the low 12 bits of a word (`zext_12(Rm)` of R84). -/
def rmField (i : Nat) : BitVec 12 := (regField i).setWidth 12

/-- The word of an instruction: the row of R78 with every ignored field 0 and the System class as class 4 (R81). -/
def encode : Instr → Word
  | .add c f rd rn imm => encodeFields c.code 0 0x0 f (regField rn) (regField rd) imm
  | .sub c f rd rn imm => encodeFields c.code 0 0x1 f (regField rn) (regField rd) imm
  | .and c f rd rn rm => encodeFields c.code 0 0x2 f (regField rn) (regField rd) (rmField rm)
  | .orr c f rd rn rm => encodeFields c.code 0 0x3 f (regField rn) (regField rd) (rmField rm)
  | .eor c f rd rn rm => encodeFields c.code 0 0x4 f (regField rn) (regField rd) (rmField rm)
  | .mov c f rd imm => encodeFields c.code 0 0x5 f 0 (regField rd) imm
  | .mvn c f rd rm => encodeFields c.code 0 0x6 f 0 (regField rd) (rmField rm)
  | .tst c rn rm => encodeFields c.code 0 0x7 false (regField rn) 0 (rmField rm)
  | .cmp c rn rm => encodeFields c.code 0 0x8 false (regField rn) 0 (rmField rm)
  | .aluUndef9 c => encodeFields c.code 0 0x9 false 0 0 0
  | .aluUndefA c => encodeFields c.code 0 0xA false 0 0 0
  | .aluUndefB c => encodeFields c.code 0 0xB false 0 0 0
  | .aluUndefC c => encodeFields c.code 0 0xC false 0 0 0
  | .aluUndefD c => encodeFields c.code 0 0xD false 0 0 0
  | .aluUndefE c => encodeFields c.code 0 0xE false 0 0 0
  | .aluUndefF c => encodeFields c.code 0 0xF false 0 0 0
  | .muldiv c => encodeFields c.code 1 0 false 0 0 0
  | .ldst c => encodeFields c.code 2 0 false 0 0 0
  | .b c imm => encodeFields c.code 3 0 false 0 0 imm
  | .bl c imm => encodeFields c.code 3 0 true 0 0 imm
  | .mrs c rd => encodeFields c.code 4 0x0 false 0 (regField rd) 0
  | .msr c rn => encodeFields c.code 4 0x1 false (regField rn) 0 0
  | .svc c => encodeFields c.code 4 0x2 false 0 0 0
  | .eret c => encodeFields c.code 4 0x3 false 0 0 0
  | .sysNop4 c => encodeFields c.code 4 0x4 false 0 0 0
  | .sysNop5 c => encodeFields c.code 4 0x5 false 0 0 0
  | .sysNop6 c => encodeFields c.code 4 0x6 false 0 0 0
  | .sysNop7 c => encodeFields c.code 4 0x7 false 0 0 0
  | .sysNop8 c => encodeFields c.code 4 0x8 false 0 0 0
  | .sysNop9 c => encodeFields c.code 4 0x9 false 0 0 0
  | .sysNopA c => encodeFields c.code 4 0xA false 0 0 0
  | .sysNopB c => encodeFields c.code 4 0xB false 0 0 0
  | .sysNopC c => encodeFields c.code 4 0xC false 0 0 0
  | .sysNopD c => encodeFields c.code 4 0xD false 0 0 0
  | .sysNopE c => encodeFields c.code 4 0xE false 0 0 0
  | .sysNopF c => encodeFields c.code 4 0xF false 0 0 0

/-- Branch offset assembly (R85): the immediate of a branch at `a` to `target`, where the offset, as an integer, is a
multiple of 4 from -8192 to 8188. -/
def branchImm (a target : Word) : Option (BitVec 12) :=
  let off : Int := (target.toNat : Int) - ((a.toNat : Int) + 4)
  if off % 4 = 0 ∧ -8192 ≤ off ∧ off ≤ 8188 then some (BitVec.ofInt 12 (off / 4)) else none

end Sys2Proof
end

