-- ==== Sys2Proof/Machine/State.lean ====
section
/-! DEFINITION. The state of the machine (R45), its reasons to stop and the state after reset (R230). -/

namespace Sys2Proof.Machine

/-- The live status word (R29): seven independent booleans. -/
structure Psr where
  /-- negative -/
  n : Bool
  /-- zero -/
  z : Bool
  /-- carry -/
  c : Bool
  /-- overflow -/
  v : Bool
  /-- IRQ mask, stored only (R34) -/
  i : Bool
  /-- FIQ mask, stored only (R34) -/
  f : Bool
  /-- privilege, true = privileged level (R34) -/
  p : Bool
deriving DecidableEq, Repr

/-- The system register block (R35). Only `vbar`, `elr` and `spsr` have behaviour. Widths: log 13. -/
structure SysRegs where
  /-- VBAR, vector table base, stored as written (R36) -/
  vbar : Word
  /-- SCTLR, opaque (R37) -/
  sctlr : Word
  /-- TTBR0, unused (R38) -/
  ttbr0 : Word
  /-- TTBR1, unused (R38) -/
  ttbr1 : Word
  /-- ASID, unused (R38) -/
  asid : Word
  /-- FAR, unused (R39) -/
  far : Word
  /-- IFSR, unused (R39) -/
  ifsr : Word
  /-- DFSR, unused (R39) -/
  dfsr : Word
  /-- CNT, never counts (R40; log 12) -/
  cnt : DWord
  /-- CMP, never compared (R40; log 12) -/
  cmp : DWord
  /-- ELR, the banked exception PC (R41) -/
  elr : Word
  /-- SPSR, the banked exception status word, packed (R41) -/
  spsr : Word
deriving DecidableEq, Repr

/-- A program image: (address, byte) pairs in one canonical form (`Memory.wf`). -/
abbrev Memory := List Host.Cell

/-- The whole architectural state (R45), and beside it the program image `imem` that the spec makes a parameter of
the step (R50). DESIGN CHOICE (safe: log 1): the image stands in State so that `step` needs no argument. -/
structure State where
  /-- r0 to r12 (R20, R21) -/
  r : Vector Word 13
  /-- index 13 (R22) -/
  sp : Word
  /-- index 14 (R22) -/
  lr : Word
  /-- index 15, the address of the instruction being executed (R25) -/
  pc : Word
  /-- the live status word (R29) -/
  psr : Psr
  /-- the system register block (R35) -/
  sys : SysRegs
  /-- the program image (R50, R53) -/
  imem : Memory
deriving DecidableEq, Repr

/-- There is no fault: decoding never fails (R74), no encoding traps (R79), the step cannot fail (R107). -/
inductive Fault where
deriving DecidableEq, Repr

/-- The reasons the machine gives an instruction no meaning. -/
inductive Refusal where
  /-- Raised by an arm of `exec` whose instruction has no meaning yet; no arm is such. Safe. -/
  | notModelled (mnemonic : String)
  /-- Raised by a data instruction with destination index 15 under `r15DestPolicy = refuse` only (R134), which is not
  the value chosen in Machine/Params.lean, so no run raises it. Safe. -/
  | r15Destination
deriving DecidableEq, Repr

/-- The status word after reset (R29, R230): all false except privilege. -/
def Psr.reset : Psr := { n := false, z := false, c := false, v := false, i := false, f := false, p := true }

/-- The system registers after reset (R35, R230). -/
def SysRegs.reset : SysRegs :=
  { vbar := 0, sctlr := 0, ttbr0 := 0, ttbr1 := 0, asid := 0, far := 0, ifsr := 0, dfsr := 0, cnt := 0, cmp := 0,
    elr := 0, spsr := 0 }

/-- The machine right after reset (R230): every value is the spec's. The image lists nothing: the host supplies it
before the first step (R234; log 3). -/
def State.reset : State :=
  { r := Vector.replicate 13 0, sp := 0, lr := 0, pc := 0, psr := Psr.reset, sys := SysRegs.reset, imem := [] }

end Sys2Proof.Machine
end

