-- ==== Sys2Proof/Machine/Flags.lean ====
section
/-! DEFINITION. The condition evaluator (R104 to R106), the flag computations of the ALU (R121 to R123) and the
status-word codec (R31 to R33). -/

namespace Sys2Proof.Machine

/-- `condPasses(cond, N, Z, C, V)` of R104. It reads these four flags and nothing else (R105). -/
def condPasses (c : Cond) (n z cy v : Bool) : Bool :=
  match c with
  | .eq => z
  | .ne => !z
  | .cs => cy
  | .cc => !cy
  | .mi => n
  | .pl => !n
  | .vs => v
  | .vc => !v
  | .hi => cy && !z
  | .ls => !cy || z
  | .ge => n == v
  | .lt => n != v
  | .gt => !z && (n == v)
  | .le => z || (n != v)
  | .al => true
  | .nv => false

/-- Whether a condition passes on a status word (R104, R106). -/
def Psr.passes (p : Psr) (c : Cond) : Bool := condPasses c p.n p.z p.c p.v

/-- `C_add` of R121: the 33-bit sum exceeds 32 bits. -/
def addCarry (a b : Word) : Bool := decide (2 ^ 32 ≤ a.toNat + b.toNat)

/-- `V_add` of R121: the exact signed sum is out of range. -/
def addOverflow (a b : Word) : Bool :=
  decide (a.toInt + b.toInt < -2 ^ 31) || decide (2 ^ 31 - 1 < a.toInt + b.toInt)

/-- `C_sub` of R122: no borrow. -/
def subCarry (a b : Word) : Bool := decide (b.toNat ≤ a.toNat)

/-- `V_sub` of R122: the exact signed difference is out of range. PRESUMED by the spec at the subtrahend 0x8000_0000
(X9, G3; unsafe: log 9). -/
def subOverflow (a b : Word) : Bool :=
  decide (a.toInt - b.toInt < -2 ^ 31) || decide (2 ^ 31 - 1 < a.toInt - b.toInt)

/-- N and Z from a result (R123; DEDUCED by the spec from its examples: log 10). -/
def Psr.withNZ (p : Psr) (r : Word) : Psr := { p with n := r.msb, z := decide (r = 0) }

/-- The flags of ADD (R124): N, Z, C, V. -/
def Psr.addFlags (p : Psr) (a b : Word) : Psr := { p.withNZ (a + b) with c := addCarry a b, v := addOverflow a b }

/-- The flags of SUB and CMP (R125, R132): N, Z, C, V. -/
def Psr.subFlags (p : Psr) (a b : Word) : Psr := { p.withNZ (a - b) with c := subCarry a b, v := subOverflow a b }

/-- The flags of AND, ORR, EOR, MOV and MVN (R126 to R130): N and Z from the result, C and V cleared. -/
def Psr.logicFlags (p : Psr) (r : Word) : Psr := { p.withNZ r with c := false, v := false }

/-- The flags of TST (R131): N and Z from the result, C and V held. -/
def Psr.testFlags (p : Psr) (r : Word) : Psr := p.withNZ r

/-- A boolean as bit `k` of a word. -/
def bitAt (b : Bool) (k : Nat) : Word := (BitVec.ofBool b).setWidth 32 <<< k

/-- `encode_psr` of R31: N at bit 31, Z 30, C 29, V 28, I 7, F 6, P 0, every other bit zero. -/
def encodePsr (p : Psr) : Word :=
  bitAt p.n 31 ||| bitAt p.z 30 ||| bitAt p.c 29 ||| bitAt p.v 28 ||| bitAt p.i 7 ||| bitAt p.f 6 ||| bitAt p.p 0

/-- `decode_psr` of R32: total, every other bit ignored. -/
def decodePsr (w : Word) : Psr :=
  { n := w.getLsbD 31, z := w.getLsbD 30, c := w.getLsbD 29, v := w.getLsbD 28, i := w.getLsbD 7, f := w.getLsbD 6,
    p := w.getLsbD 0 }

end Sys2Proof.Machine
end

