-- ==== Sys2Proof/Machine/Memory.lean ====
section
/-! DEFINITION. The program image as memory: reading, writing and its canonical form (R11, R50 to R53). -/

namespace Sys2Proof.Machine

/-- What a byte of the image that nothing has written reads as. DESIGN CHOICE (unsafe: log 2): zero, as in the word
images of 95_test_vectors.md L3. -/
def Memory.unlisted : Byte := 0x00#8

/-- The byte at an address. -/
def Memory.readByte : Memory → Nat → Byte
  | [], _ => Memory.unlisted
  | (k, v) :: m, a => if a = k then v else Memory.readByte m a

/-- A cell in front of an image, left out where it holds what an unlisted address reads as. -/
def Memory.cons (a : Nat) (b : Byte) (m : Memory) : Memory :=
  if b = Memory.unlisted then m else (a, b) :: m

/-- The image with a byte written; it keeps the canonical form. -/
def Memory.writeByte : Memory → Nat → Byte → Memory
  | [], a, b => Memory.cons a b []
  | (k, v) :: m, a, b =>
    if a < k then Memory.cons a b ((k, v) :: m)
    else if a = k then Memory.cons a b m
    else (k, v) :: Memory.writeByte m a b

/-- Addresses from `lo` upward, strictly rising, below 2^32 (R52), and no cell an unlisted address would equal. -/
def Memory.wfFrom (lo : Nat) : Memory → Bool
  | [] => true
  | (k, v) :: m => decide (lo ≤ k) && decide (k < 2 ^ 32) && decide (v ≠ Memory.unlisted) && Memory.wfFrom (k + 1) m

/-- The canonical form of an image. -/
def Memory.wf (m : Memory) : Bool := Memory.wfFrom 0 m

/-- The byte at a 32-bit address (R52). -/
def Memory.read (m : Memory) (a : Word) : Byte := m.readByte a.toNat

/-- The image with the byte at a 32-bit address written. -/
def Memory.write (m : Memory) (a : Word) (b : Byte) : Memory := m.writeByte a.toNat b

/-- `MemRead(addr, n)` of R11 as bytes: `n` bytes at rising addresses, modulo 2^32. -/
def Memory.readBytes (m : Memory) (a : Word) : Nat → List Byte
  | 0 => []
  | n + 1 => m.read a :: Memory.readBytes m (a + 1) n

/-- `MemWrite(addr, n, v)` of R11 as bytes: the bytes at rising addresses, modulo 2^32. -/
def Memory.writeBytes (m : Memory) (a : Word) : List Byte → Memory
  | [] => m
  | b :: bs => Memory.writeBytes (m.write a b) (a + 1) bs

/-- The word of the image at an address, in the image's byte order (R53). -/
def Memory.readWord (m : Memory) (a : Word) : Word :=
  wordOfBytes params.imageEndian (m.read a) (m.read (a + 1)) (m.read (a + 2)) (m.read (a + 3))

/-- The image with a word written at an address, in the image's byte order (R53). -/
def Memory.writeWord (m : Memory) (a w : Word) : Memory :=
  (((m.write a (byteOfWord params.imageEndian w 0)).write (a + 1) (byteOfWord params.imageEndian w 1)).write (a + 2)
    (byteOfWord params.imageEndian w 2)).write (a + 3) (byteOfWord params.imageEndian w 3)

end Sys2Proof.Machine
end

