-- ==== Sys2Proof/Machine/Operands.lean ====
section
/-! DEFINITION. Operand forms: register indices (R20 to R26, R77), immediates (R76) and branch targets (R160). -/

namespace Sys2Proof.Machine

/-- `x[i]` (R23): an index outside 0 to 15 reads zero. Index 15 reads `pc`, the address of the instruction itself.
DESIGN CHOICE of the spec (D5, R135; unsafe: log 8). -/
def State.readReg (s : State) (i : Nat) : Word :=
  if h : i < 13 then s.r[i]
  else if i = 13 then s.sp
  else if i = 14 then s.lr
  else if i = 15 then s.pc
  else 0

/-- The direct write of the program counter (R10, R26): always `align4` of the value. -/
def State.setPc (s : State) (v : Word) : State := { s with pc := align4 v }

/-- `x[i] <- v` (R24): index 15 is stored aligned, an index outside 0 to 15 writes nothing. -/
def State.writeReg (s : State) (i : Nat) (v : Word) : State :=
  if h : i < 13 then { s with r := s.r.set i v }
  else if i = 13 then { s with sp := v }
  else if i = 14 then { s with lr := v }
  else if i = 15 then s.setPc v
  else s

/-- The live status word replaced. -/
def State.setPsr (s : State) (p : Psr) : State := { s with psr := p }

/-- The system registers replaced. -/
def State.setSys (s : State) (y : SysRegs) : State := { s with sys := y }

/-- The program image replaced: the host's loader only (R50, R235). -/
def State.setImem (s : State) (m : Memory) : State := { s with imem := m }

/-- The target of a branch at `pc0` (R160), modulo 2^32. -/
def branchTarget (pc0 : Word) (imm : BitVec 12) : Word := align4 (pc0 + 4 + branchDisp imm)

end Sys2Proof.Machine
end

