-- ==== Sys2Proof/Machine/Ops.lean ====
section
/-! DEFINITION. The operations the instructions share: the condition guard (R100, R103), advancing the program
counter (R101), finishing a data instruction (R120, R134), taking an exception (R201) and returning from one (R207),
and the fetch of an instruction word (R50). -/

namespace Sys2Proof.Machine

/-- What a step answers. -/
abbrev Result := Host.Outcome State Fault Refusal

/-- `pc <- pc0 + 4` (R27, R101), modulo 2^32 and aligned as every write of `pc` is (R26; log 18). -/
def State.advance (s : State) : State := s.setPc (s.pc + 4)

/-- The orchestrator's guard (R100, R103): a failed condition only advances `pc`; the condition is judged by the
flags before the instruction (R106). -/
def guarded (c : Cond) (s : State) (unit : Result) : Result :=
  if s.psr.passes c then unit else .next s.advance

/-- The end of a data instruction that writes `x[rd] <- v` and the status word `p` (R120 steps 3 to 5, R171). With
`rd = 15` the policy of R134 decides: the next `pc` is `pc0 + 4`, or `align4(v) + 4`, or there is no meaning. With any
other `rd` every policy advances from `pc0`. -/
def writeResult (policy : R15DestPolicy) (rd : Nat) (v : Word) (p : Psr) (s : State) : Result :=
  let written := (s.writeReg rd v).setPsr p
  match policy with
  | .supersede => .next (written.setPc (s.pc + 4))
  | .writeThenAdvance => .next (written.setPc (written.pc + 4))
  | .refuse => if rd = 15 then .refused .r15Destination else .next (written.setPc (s.pc + 4))

/-- The status word a writing ALU instruction leaves: the new flags when S = 1, the old ones when S = 0 (R120). -/
def flagsIf (f : Bool) (new old : Psr) : Psr := if f then new else old

/-- Taking an exception (R201) through the vector offset `off`: ELR gets the address of the instruction itself (R204),
SPSR the packed status before entry, P is forced true, and `pc` goes to the handler (R202). Nothing else changes
(R206). The only caller is SVC (R200; log 16). -/
def State.enterException (s : State) (off : Word) : State :=
  let saved := s.setSys { s.sys with elr := s.pc, spsr := encodePsr s.psr }
  let elevated := saved.setPsr { saved.psr with p := true }
  elevated.setPc (align1K elevated.sys.vbar + off)

/-- Returning from an exception (R207): every field of the status word from SPSR, `pc` from ELR; ELR and SPSR keep
their values and no prior entry is needed (R208). -/
def State.returnFromException (s : State) : State := (s.setPsr (decodePsr s.sys.spsr)).setPc s.sys.elr

/-- `Fetch(pc)` (R50): the word of the current image at `pc` (R64). -/
def State.fetchWord (s : State) : Word := s.imem.readWord s.pc

end Sys2Proof.Machine
end

