-- ==== Sys2Proof/Machine/Alu.lean ====
section
/-! DEFINITION. The ALU class (spec/41_alu.md, R120 to R136). Every meaning reads its operands from the state before the
instruction (R12, D19; log 17). -/

namespace Sys2Proof.Machine

/-- ADD, add immediate (R124). -/
def execAdd (c : Cond) (f : Bool) (rd rn : Nat) (imm : BitVec 12) (s : State) : Result :=
  guarded c s <|
    let a := s.readReg rn
    let b := zext32 imm
    writeResult params.r15DestPolicy rd (a + b) (flagsIf f (s.psr.addFlags a b) s.psr) s

/-- SUB, subtract immediate (R125). -/
def execSub (c : Cond) (f : Bool) (rd rn : Nat) (imm : BitVec 12) (s : State) : Result :=
  guarded c s <|
    let a := s.readReg rn
    let b := zext32 imm
    writeResult params.r15DestPolicy rd (a - b) (flagsIf f (s.psr.subFlags a b) s.psr) s

/-- The end that AND, ORR, EOR, MOV and MVN share (R126 to R130): write the result, C and V cleared when S = 1. -/
def logicResult (f : Bool) (rd : Nat) (r : Word) (s : State) : Result :=
  writeResult params.r15DestPolicy rd r (flagsIf f (s.psr.logicFlags r) s.psr) s

/-- AND, bitwise AND of registers (R126). -/
def execAnd (c : Cond) (f : Bool) (rd rn rm : Nat) (s : State) : Result :=
  guarded c s <| logicResult f rd (s.readReg rn &&& s.readReg rm) s

/-- ORR, bitwise OR of registers (R127). -/
def execOrr (c : Cond) (f : Bool) (rd rn rm : Nat) (s : State) : Result :=
  guarded c s <| logicResult f rd (s.readReg rn ||| s.readReg rm) s

/-- EOR, bitwise exclusive OR of registers (R128). -/
def execEor (c : Cond) (f : Bool) (rd rn rm : Nat) (s : State) : Result :=
  guarded c s <| logicResult f rd (s.readReg rn ^^^ s.readReg rm) s

/-- MOV, move immediate (R129). -/
def execMov (c : Cond) (f : Bool) (rd : Nat) (imm : BitVec 12) (s : State) : Result :=
  guarded c s <| logicResult f rd (zext32 imm) s

/-- MVN, move NOT of register (R130). -/
def execMvn (c : Cond) (f : Bool) (rd rm : Nat) (s : State) : Result :=
  guarded c s <| logicResult f rd (~~~ s.readReg rm) s

/-- TST, test bits: flags only, whatever S holds (R131). -/
def execTst (c : Cond) (rn rm : Nat) (s : State) : Result :=
  guarded c s <| .next (s.setPsr (s.psr.testFlags (s.readReg rn &&& s.readReg rm))).advance

/-- CMP, compare registers: flags only, whatever S holds (R132). -/
def execCmp (c : Cond) (rn rm : Nat) (s : State) : Result :=
  guarded c s <| .next (s.setPsr (s.psr.subFlags (s.readReg rn) (s.readReg rm))).advance

/-- An undefined ALU opcode: nothing but `pc <- pc0 + 4`, no flags even with S = 1 (R133, X1). -/
def aluUndefined (c : Cond) (s : State) : Result := guarded c s (.next s.advance)

/-- ALU opcode 0x9 (R133). -/
def execAluUndef9 (c : Cond) (s : State) : Result := aluUndefined c s
/-- ALU opcode 0xA (R133). -/
def execAluUndefA (c : Cond) (s : State) : Result := aluUndefined c s
/-- ALU opcode 0xB (R133). -/
def execAluUndefB (c : Cond) (s : State) : Result := aluUndefined c s
/-- ALU opcode 0xC (R133). -/
def execAluUndefC (c : Cond) (s : State) : Result := aluUndefined c s
/-- ALU opcode 0xD (R133). -/
def execAluUndefD (c : Cond) (s : State) : Result := aluUndefined c s
/-- ALU opcode 0xE (R133). -/
def execAluUndefE (c : Cond) (s : State) : Result := aluUndefined c s
/-- ALU opcode 0xF (R133). -/
def execAluUndefF (c : Cond) (s : State) : Result := aluUndefined c s

end Sys2Proof.Machine
end

