-- ==== Sys2Proof/Machine/Branch.lean ====
section
/-! DEFINITION. The branch class (spec/43_branch.md, R160 to R165). -/

namespace Sys2Proof.Machine

/-- B, branch (R161). -/
def execB (c : Cond) (imm : BitVec 12) (s : State) : Result :=
  guarded c s (.next (s.setPc (branchTarget s.pc imm)))

/-- BL, branch with link (R162): the target is computed from `pc0`, then `lr <- pc0 + 4`. -/
def execBl (c : Cond) (imm : BitVec 12) (s : State) : Result :=
  guarded c s (.next ((s.writeReg 14 (s.pc + 4)).setPc (branchTarget s.pc imm)))

end Sys2Proof.Machine
end

