-- ==== Sys2Proof/Machine/Stubs.lean ====
section
/-! DEFINITION. The multiply/divide and load/store classes (spec/42_muldiv_loadstore.md): their no-op contract. -/

namespace Sys2Proof.Machine

/-- MULDIV: nothing but `pc <- pc0 + 4` (R150, R152). -/
def execMuldiv (c : Cond) (s : State) : Result := guarded c s (.next s.advance)

/-- LDST: no memory access, nothing but `pc <- pc0 + 4` (R151, R152). -/
def execLdst (c : Cond) (s : State) : Result := guarded c s (.next s.advance)

end Sys2Proof.Machine
end

