-- ==== Sys2Proof/Machine/System.lean ====
section
/-! DEFINITION. The System class (spec/44_system.md, R170 to R176). No instruction checks the privilege bit. DESIGN
CHOICE of the spec (R176, D8, C7; unsafe: log 11). -/

namespace Sys2Proof.Machine

/-- MRS, read the packed status word (R171). -/
def execMrs (c : Cond) (rd : Nat) (s : State) : Result :=
  guarded c s <| writeResult params.r15DestPolicy rd (encodePsr s.psr) s.psr s

/-- MSR, replace the whole status word (R172). -/
def execMsr (c : Cond) (rn : Nat) (s : State) : Result :=
  guarded c s <| .next (s.setPsr (decodePsr (s.readReg rn))).advance

/-- SVC, supervisor call: takes the exception at offset 0x08 (R173, R201). -/
def execSvc (c : Cond) (s : State) : Result := guarded c s (.next (s.enterException svcOffset))

/-- ERET, return from exception (R174, R207). -/
def execEret (c : Cond) (s : State) : Result := guarded c s (.next s.returnFromException)

/-- A System no-op: nothing but `pc <- pc0 + 4` (R175, X2). -/
def systemNoOp (c : Cond) (s : State) : Result := guarded c s (.next s.advance)

/-- System opcode 0x4 (R175). -/
def execSysNop4 (c : Cond) (s : State) : Result := systemNoOp c s
/-- System opcode 0x5 (R175). -/
def execSysNop5 (c : Cond) (s : State) : Result := systemNoOp c s
/-- System opcode 0x6 (R175). -/
def execSysNop6 (c : Cond) (s : State) : Result := systemNoOp c s
/-- System opcode 0x7 (R175). -/
def execSysNop7 (c : Cond) (s : State) : Result := systemNoOp c s
/-- System opcode 0x8 (R175). -/
def execSysNop8 (c : Cond) (s : State) : Result := systemNoOp c s
/-- System opcode 0x9 (R175). -/
def execSysNop9 (c : Cond) (s : State) : Result := systemNoOp c s
/-- System opcode 0xA (R175). -/
def execSysNopA (c : Cond) (s : State) : Result := systemNoOp c s
/-- System opcode 0xB (R175). -/
def execSysNopB (c : Cond) (s : State) : Result := systemNoOp c s
/-- System opcode 0xC (R175). -/
def execSysNopC (c : Cond) (s : State) : Result := systemNoOp c s
/-- System opcode 0xD (R175). -/
def execSysNopD (c : Cond) (s : State) : Result := systemNoOp c s
/-- System opcode 0xE (R175). -/
def execSysNopE (c : Cond) (s : State) : Result := systemNoOp c s
/-- System opcode 0xF (R175). -/
def execSysNopF (c : Cond) (s : State) : Result := systemNoOp c s

end Sys2Proof.Machine
end

