-- ==== Sys2Proof/Machine/Dispatch.lean ====
section
/-! DEFINITION. One arm per instruction (R78, R100, R102). -/

namespace Sys2Proof.Machine

def exec (i : Instr) (s : State) : Host.Outcome State Fault Refusal :=
  match i with
  | .add c f rd rn imm => Sys2Proof.Machine.execAdd c f rd rn imm s
  | .sub c f rd rn imm => Sys2Proof.Machine.execSub c f rd rn imm s
  | .and c f rd rn rm => Sys2Proof.Machine.execAnd c f rd rn rm s
  | .orr c f rd rn rm => Sys2Proof.Machine.execOrr c f rd rn rm s
  | .eor c f rd rn rm => Sys2Proof.Machine.execEor c f rd rn rm s
  | .mov c f rd imm => Sys2Proof.Machine.execMov c f rd imm s
  | .mvn c f rd rm => Sys2Proof.Machine.execMvn c f rd rm s
  | .tst c rn rm => Sys2Proof.Machine.execTst c rn rm s
  | .cmp c rn rm => Sys2Proof.Machine.execCmp c rn rm s
  | .aluUndef9 c => Sys2Proof.Machine.execAluUndef9 c s
  | .aluUndefA c => Sys2Proof.Machine.execAluUndefA c s
  | .aluUndefB c => Sys2Proof.Machine.execAluUndefB c s
  | .aluUndefC c => Sys2Proof.Machine.execAluUndefC c s
  | .aluUndefD c => Sys2Proof.Machine.execAluUndefD c s
  | .aluUndefE c => Sys2Proof.Machine.execAluUndefE c s
  | .aluUndefF c => Sys2Proof.Machine.execAluUndefF c s
  | .muldiv c => Sys2Proof.Machine.execMuldiv c s
  | .ldst c => Sys2Proof.Machine.execLdst c s
  | .b c imm => Sys2Proof.Machine.execB c imm s
  | .bl c imm => Sys2Proof.Machine.execBl c imm s
  | .mrs c rd => Sys2Proof.Machine.execMrs c rd s
  | .msr c rn => Sys2Proof.Machine.execMsr c rn s
  | .svc c => Sys2Proof.Machine.execSvc c s
  | .eret c => Sys2Proof.Machine.execEret c s
  | .sysNop4 c => Sys2Proof.Machine.execSysNop4 c s
  | .sysNop5 c => Sys2Proof.Machine.execSysNop5 c s
  | .sysNop6 c => Sys2Proof.Machine.execSysNop6 c s
  | .sysNop7 c => Sys2Proof.Machine.execSysNop7 c s
  | .sysNop8 c => Sys2Proof.Machine.execSysNop8 c s
  | .sysNop9 c => Sys2Proof.Machine.execSysNop9 c s
  | .sysNopA c => Sys2Proof.Machine.execSysNopA c s
  | .sysNopB c => Sys2Proof.Machine.execSysNopB c s
  | .sysNopC c => Sys2Proof.Machine.execSysNopC c s
  | .sysNopD c => Sys2Proof.Machine.execSysNopD c s
  | .sysNopE c => Sys2Proof.Machine.execSysNopE c s
  | .sysNopF c => Sys2Proof.Machine.execSysNopF c s

end Sys2Proof.Machine
end

