-- ==== Sys2Proof/Machine/Step.lean ====
section
/-! DEFINITION. One step of the machine (R50, R100). -/

namespace Sys2Proof.Machine

/-- `step(s, w)` of R100: the core's step on the word it is handed. The core does not check that the word came from
`pc` (R50). -/
def stepWord (w : Word) (s : State) : Host.Outcome State Fault Refusal := exec (decode w) s

/-- `Step(imem, s) = step(s, Fetch(s.pc))` of R50, with the image in the state (log 1). -/
def step (s : State) : Host.Outcome State Fault Refusal := stepWord s.fetchWord s

/-- The state with the table's word `w` of `nbits` bits stored where `step` fetches: in the image, at `pc`. It stands
for the host's loading of a program (R234; log 3). -/
def State.withFetchWord (s : State) (nbits w : Nat) : State :=
  s.setImem (s.imem.writeWord s.pc (BitVec.ofNat 32 (w % 2 ^ nbits)))

end Sys2Proof.Machine
end

