-- ==== Sys2Proof/Machine/AddressMap.lean ====
section
/-! DEFINITION. The platform's address classifier (R57, R58). It is context: the core never consults it, and no
meaning of this model does. -/

namespace Sys2Proof.Machine

/-- The regions of R57. -/
inductive Region where
  | rom | ram | vram | uart0 | storageController | blockStorage | genericMmio | unknown
deriving DecidableEq, Repr

/-- The region of an address: half-open ranges, the specific ones before the generic MMIO fallback (R57, R58). -/
def classify (a : Word) : Region :=
  let n := a.toNat
  if n < 0x08000000 then .rom
  else if 0x10000000 ≤ n ∧ n < 0x30000000 then .ram
  else if 0x30000000 ≤ n ∧ n < 0x38000000 then .vram
  else if 0x40002000 ≤ n ∧ n < 0x40003000 then .uart0
  else if 0x40010000 ≤ n ∧ n < 0x40020000 then .storageController
  else if 0x50000000 ≤ n ∧ n < 0x60000000 then .blockStorage
  else if 0x40000000 ≤ n ∧ n < 0x80000000 then .genericMmio
  else .unknown

end Sys2Proof.Machine
end

