-- ==== Sys2Proof/Machine/Disassembler.lean ====
section
/-! DEFINITION. The assembler text of an instruction word (R81 to R83). Text has no semantics (D2): no meaning of this
model reads it. Number formats: log 21. -/

namespace Sys2Proof.Machine

/-- The condition suffix (R82); AL is omitted in writing. -/
def condSuffix : Cond → String
  | .eq => "EQ" | .ne => "NE" | .cs => "CS" | .cc => "CC" | .mi => "MI" | .pl => "PL" | .vs => "VS" | .vc => "VC"
  | .hi => "HI" | .ls => "LS" | .ge => "GE" | .lt => "LT" | .gt => "GT" | .le => "LE" | .al => "" | .nv => "NV"

/-- A decimal digit, or a hexadecimal one. -/
def digitText : Nat → String
  | 0 => "0" | 1 => "1" | 2 => "2" | 3 => "3" | 4 => "4" | 5 => "5" | 6 => "6" | 7 => "7" | 8 => "8" | 9 => "9"
  | 10 => "A" | 11 => "B" | 12 => "C" | 13 => "D" | 14 => "E" | _ => "F"

/-- The last `k` digits of a number in a base, most significant first. -/
def digitsText (base : Nat) : Nat → Nat → String
  | 0, _ => ""
  | k + 1, n => digitsText base k (n / base) ++ digitText (n % base)

/-- An immediate 0 to 4095 in decimal, without leading zeros. -/
def immText (n : Nat) : String :=
  digitsText 10 (if n < 10 then 1 else if n < 100 then 2 else if n < 1000 then 3 else 4) n

/-- A word in hexadecimal, its halves apart as in 95_test_vectors.md. -/
def wordText (w : Word) : String :=
  "0x" ++ digitsText 16 4 (w.toNat / 2 ^ 16) ++ "_" ++ digitsText 16 4 (w.toNat % 2 ^ 16)

/-- A register's name: r0 to r12, sp, lr, pc (R20, R81). -/
def regText (i : Nat) : String :=
  if i < 10 then "r" ++ digitText i
  else if i < 13 then "r1" ++ digitText (i - 10)
  else if i = 13 then "sp" else if i = 14 then "lr" else "pc"

/-- Mnemonic, S mark and condition suffix, in that order (R81). -/
def headText (name : String) (f : Bool) (c : Cond) : String := name ++ (if f then "S" else "") ++ condSuffix c

/-- The text of the word `w` at the address `a` (R81): TST and CMP without S, System words of any class alike, and
`.word` for the stub classes and the undefined opcodes. DESIGN CHOICE (safe: log 23): a System no-op, opcode 0x4 to 0xF
of any of the four System classes, is `.word` of the word as it stands; R83's NOP word is not printed as NOP. -/
def disassemble (a w : Word) : String :=
  match decode w with
  | .add c f rd rn imm => headText "ADD" f c ++ " " ++ regText rd ++ ", " ++ regText rn ++ ", #" ++ immText imm.toNat
  | .sub c f rd rn imm => headText "SUB" f c ++ " " ++ regText rd ++ ", " ++ regText rn ++ ", #" ++ immText imm.toNat
  | .and c f rd rn rm => headText "AND" f c ++ " " ++ regText rd ++ ", " ++ regText rn ++ ", " ++ regText rm
  | .orr c f rd rn rm => headText "ORR" f c ++ " " ++ regText rd ++ ", " ++ regText rn ++ ", " ++ regText rm
  | .eor c f rd rn rm => headText "EOR" f c ++ " " ++ regText rd ++ ", " ++ regText rn ++ ", " ++ regText rm
  | .mov c f rd imm => headText "MOV" f c ++ " " ++ regText rd ++ ", #" ++ immText imm.toNat
  | .mvn c f rd rm => headText "MVN" f c ++ " " ++ regText rd ++ ", " ++ regText rm
  | .tst c rn rm => headText "TST" false c ++ " " ++ regText rn ++ ", " ++ regText rm
  | .cmp c rn rm => headText "CMP" false c ++ " " ++ regText rn ++ ", " ++ regText rm
  | .b c imm => headText "B" false c ++ " " ++ wordText (branchTarget a imm)
  | .bl c imm => headText "BL" false c ++ " " ++ wordText (branchTarget a imm)
  | .mrs c rd => headText "MRS" false c ++ " " ++ regText rd
  | .msr c rn => headText "MSR" false c ++ " " ++ regText rn
  | .svc c => headText "SVC" false c
  | .eret c => headText "ERET" false c
  | .muldiv _ | .ldst _ => ".word " ++ wordText w
  | .aluUndef9 _ | .aluUndefA _ | .aluUndefB _ | .aluUndefC _ | .aluUndefD _ | .aluUndefE _ | .aluUndefF _ =>
    ".word " ++ wordText w
  | .sysNop4 _ | .sysNop5 _ | .sysNop6 _ | .sysNop7 _ | .sysNop8 _ | .sysNop9 _ => ".word " ++ wordText w
  | .sysNopA _ | .sysNopB _ | .sysNopC _ | .sysNopD _ | .sysNopE _ | .sysNopF _ => ".word " ++ wordText w

end Sys2Proof.Machine
end

