-- ==== Sys2Proof/Machine/HostInterface.lean ====
section
/-! DEFINITION. What the host may do between steps (R236), as functions beside `step`: no step calls one (log 19).
`step(word)` of R236 is `stepWord` (Machine/Step.lean). -/

namespace Sys2Proof.Machine

/-- Register get (R236): any index; outside 0 to 15 it reads zero (R23, D18). -/
def hostGet (s : State) (i : Nat) : Word := s.readReg i

/-- Register set (R236): any index; outside 0 to 15 it is ignored, 15 is stored aligned (R24, D18). -/
def hostSet (s : State) (i : Nat) (v : Word) : State := s.writeReg i v

/-- The 32-bit system registers (R35). -/
inductive SysReg where
  | vbar | sctlr | ttbr0 | ttbr1 | asid | far | ifsr | dfsr | elr | spsr
deriving DecidableEq, Repr

/-- The 64-bit system registers (R35). -/
inductive SysReg64 where
  | cnt | cmp
deriving DecidableEq, Repr

/-- A 32-bit system register's value: read back as written (R36). -/
def hostReadSys (s : State) : SysReg → Word
  | .vbar => s.sys.vbar
  | .sctlr => s.sys.sctlr
  | .ttbr0 => s.sys.ttbr0
  | .ttbr1 => s.sys.ttbr1
  | .asid => s.sys.asid
  | .far => s.sys.far
  | .ifsr => s.sys.ifsr
  | .dfsr => s.sys.dfsr
  | .elr => s.sys.elr
  | .spsr => s.sys.spsr

/-- A 32-bit system register written: stored as written (R36 to R39, R236). Beside the host only reset and the exception
protocol write these (R42, D10; log 14). -/
def hostWriteSys (s : State) (g : SysReg) (v : Word) : State :=
  match g with
  | .vbar => s.setSys { s.sys with vbar := v }
  | .sctlr => s.setSys { s.sys with sctlr := v }
  | .ttbr0 => s.setSys { s.sys with ttbr0 := v }
  | .ttbr1 => s.setSys { s.sys with ttbr1 := v }
  | .asid => s.setSys { s.sys with asid := v }
  | .far => s.setSys { s.sys with far := v }
  | .ifsr => s.setSys { s.sys with ifsr := v }
  | .dfsr => s.setSys { s.sys with dfsr := v }
  | .elr => s.setSys { s.sys with elr := v }
  | .spsr => s.setSys { s.sys with spsr := v }

/-- CNT or CMP read (R40, R236). -/
def hostReadSys64 (s : State) : SysReg64 → DWord
  | .cnt => s.sys.cnt
  | .cmp => s.sys.cmp

/-- CNT or CMP written (R40, R236). -/
def hostWriteSys64 (s : State) (g : SysReg64) (v : DWord) : State :=
  match g with
  | .cnt => s.setSys { s.sys with cnt := v }
  | .cmp => s.setSys { s.sys with cmp := v }

/-- reset() (R230, R232): everything is cleared and the status word set, then `pc` is computed from the cleared VBAR
(R231, R233). The image is not touched (R235). -/
def hostReset (s : State) : State :=
  let cleared : State :=
    { s with r := Vector.replicate 13 0, sp := 0, lr := 0, psr := Psr.reset, sys := SysRegs.reset }
  cleared.setPc (cleared.sys.vbar + resetOffset)

/-- The host's collaborator supplies one byte of the image (R50, R53). -/
def hostLoadByte (s : State) (a : Word) (b : Byte) : State := s.setImem (s.imem.write a b)

/-- The host's collaborator supplies one word of the image (R50). -/
def hostLoadWord (s : State) (a w : Word) : State := s.setImem (s.imem.writeWord a w)

end Sys2Proof.Machine
end

