-- ==== Sys2Proof/Machine/Orchestrator.lean ====
section
/-! DEFINITION. R100 as it stands: the step on a decoded record (R72), dispatched by class to one of five execution
units (R2, R102). It is a second reading of the machine, beside `exec`; a statement says that the two agree. -/

namespace Sys2Proof.Machine

/-- Steps 3 to 5 of R120 for an ALU opcode that writes its destination. -/
def aluWrite (d : Decoded) (r : Word) (flags : Psr) (s : State) : Result :=
  writeResult params.r15DestPolicy d.rd r (if d.s then flags else s.psr) s

/-- The ALU unit (R120, R124 to R133), by opcode. -/
def aluExecute (d : Decoded) (s : State) : Result :=
  let a := s.readReg d.rn
  let b := s.readReg d.rm
  let imm := zext32 d.imm12
  match d.opcode.toNat with
  | 0 => aluWrite d (a + imm) (s.psr.addFlags a imm) s
  | 1 => aluWrite d (a - imm) (s.psr.subFlags a imm) s
  | 2 => aluWrite d (a &&& b) (s.psr.logicFlags (a &&& b)) s
  | 3 => aluWrite d (a ||| b) (s.psr.logicFlags (a ||| b)) s
  | 4 => aluWrite d (a ^^^ b) (s.psr.logicFlags (a ^^^ b)) s
  | 5 => aluWrite d imm (s.psr.logicFlags imm) s
  | 6 => aluWrite d (~~~ b) (s.psr.logicFlags (~~~ b)) s
  | 7 => .next (s.setPsr (s.psr.testFlags (a &&& b))).advance
  | 8 => .next (s.setPsr (s.psr.subFlags a b)).advance
  | _ => .next s.advance

/-- The multiply/divide unit (R150). -/
def mulDivExecute (_ : Decoded) (s : State) : Result := .next s.advance

/-- The load/store unit (R151). -/
def loadStoreExecute (_ : Decoded) (s : State) : Result := .next s.advance

/-- The branch unit (R160 to R162): S is the link request. -/
def branchExecute (d : Decoded) (s : State) : Result :=
  let target := branchTarget s.pc d.imm12
  .next ((if d.s then s.writeReg 14 (s.pc + 4) else s).setPc target)

/-- The system unit (R170 to R175), by opcode. -/
def systemExecute (d : Decoded) (s : State) : Result :=
  match d.opcode.toNat with
  | 0 => writeResult params.r15DestPolicy d.rd (encodePsr s.psr) s.psr s
  | 1 => .next (s.setPsr (decodePsr (s.readReg d.rn))).advance
  | 2 => .next (s.enterException svcOffset)
  | 3 => .next s.returnFromException
  | _ => .next s.advance

/-- `step(s, w)` of R100. -/
def orchestrate (w : Word) (s : State) : Result :=
  let d := decodeFields w
  if condPasses d.cond s.psr.n s.psr.z s.psr.c s.psr.v then
    match d.cls with
    | .alu => aluExecute d s
    | .mulDiv => mulDivExecute d s
    | .loadStore => loadStoreExecute d s
    | .branch => branchExecute d s
    | .system => systemExecute d s
  else .next s.advance

end Sys2Proof.Machine
end

