-- ==== Sys2Proof/Safety.lean ====
section
/-! DEFINITION. The terms the statements use: the invariant of every reachable state, what an instruction leaves
unchanged, safe runs, and the rows of the opcode map (R75, R78) as the statements about the decoder quote them. -/

namespace Sys2Proof.Machine

/-- Invariant (a) of R26: the program counter is a multiple of 4. -/
abbrev State.PcAligned (s : State) : Prop := s.pc.toNat % 4 = 0

/-- The invariant of the machine: `pc` is aligned (R26) and the image is in its canonical form. -/
abbrev State.Inv (s : State) : Prop := s.PcAligned ∧ s.imem.wf = true

/-- Every byte of the image reads as before. -/
def ImageKept (s t : State) : Prop := ∀ a : Word, t.imem.read a = s.imem.read a

/-- Every one of r0 to r12, sp and lr reads as before, but for the indices listed. -/
def RegsKeptBut (written : List Nat) (s t : State) : Prop :=
  ∀ i, i < 15 → i ∉ written → t.readReg i = s.readReg i

/-- What a data instruction with destination `rd` and result `v` does to everything but the status word: the result
is in the destination when that is one of the indices 0 to 14, every other register is kept, `pc` advances by 4
whatever the destination, and no system register and no byte of the image changes. -/
def DataResult (rd : Nat) (v : Word) (s t : State) : Prop :=
  (rd < 15 → t.readReg rd = v) ∧ RegsKeptBut [rd] s t ∧ t.pc = s.pc + 4 ∧ t.sys = s.sys ∧ ImageKept s t

/-- What AND, ORR, EOR, MOV and MVN do: `DataResult`, and with S = 1 N and Z from the result, C and V cleared, I, F
and P kept; with S = 0 the status word is kept. -/
def LogicResult (f : Bool) (rd : Nat) (v : Word) (s t : State) : Prop :=
  DataResult rd v s t ∧
    t.psr = if f then { s.psr with n := v.msb, z := decide (v = 0), c := false, v := false } else s.psr

/-- N and Z of the status word are those of the result `v` (R123). -/
def NZOf (v : Word) (t : State) : Prop := t.psr.n = v.msb ∧ t.psr.z = decide (v = 0)

/-- N, Z, C and V of the status word are those of `a - b` (R122, R123), in terms of the operands. -/
def DifferenceFlags (a b : Word) (t : State) : Prop :=
  t.psr.n = (a - b).msb ∧ t.psr.z = decide (a = b) ∧ t.psr.c = decide (b.toNat ≤ a.toNat) ∧
    t.psr.v = decide (a.toInt - b.toInt < -2 ^ 31 ∨ 2 ^ 31 - 1 < a.toInt - b.toInt)

/-- R30, first row: the instructions that may change N and Z. -/
def mayWriteNZ : Instr → Bool
  | .add _ f _ _ _ | .sub _ f _ _ _ | .and _ f _ _ _ | .orr _ f _ _ _ | .eor _ f _ _ _ | .mov _ f _ _ | .mvn _ f _ _ => f
  | .tst _ _ _ | .cmp _ _ _ | .msr _ _ | .eret _ => true
  | _ => false

/-- R30, second row: the instructions that may change C and V. -/
def mayWriteCV : Instr → Bool
  | .tst _ _ _ => false
  | i => mayWriteNZ i

/-- R30, third row: the instructions that may change I and F. -/
def mayWriteMasks : Instr → Bool
  | .msr _ _ | .eret _ => true
  | _ => false

/-- R30, fourth row: the instructions that may change P. -/
def mayWritePrivilege : Instr → Bool
  | .svc _ | .msr _ _ | .eret _ => true
  | _ => false

/-- A safe run of `k` steps: no fault and no refusal on the way. -/
def RunsSafely (k : Nat) (s : State) : Prop := ∃ t, Sys2Proof.core.run k s = .next t

/-- A row of the opcode map (R78) with the bits R75 lists as ignored. -/
structure OpcodeRow where
  mnemonic : String
  mask : Word
  pattern : Word
  ignored : Word
deriving DecidableEq, Repr

/-- The ALU rows of R78 with R75's ignored bits. -/
def aluRows : List OpcodeRow :=
  [⟨"ADD", 0x0FE00000, 0x00000000, 0x00000000⟩, ⟨"SUB", 0x0FE00000, 0x00200000, 0x00000000⟩,
   ⟨"AND", 0x0FE00000, 0x00400000, 0x00000FF0⟩, ⟨"ORR", 0x0FE00000, 0x00600000, 0x00000FF0⟩,
   ⟨"EOR", 0x0FE00000, 0x00800000, 0x00000FF0⟩, ⟨"MOV", 0x0FE00000, 0x00A00000, 0x000F0000⟩,
   ⟨"MVN", 0x0FE00000, 0x00C00000, 0x000F0FF0⟩, ⟨"TST", 0x0FE00000, 0x00E00000, 0x0010FFF0⟩,
   ⟨"CMP", 0x0FE00000, 0x01000000, 0x0010FFF0⟩, ⟨"ALU_UNDEF_9", 0x0FE00000, 0x01200000, 0x001FFFFF⟩,
   ⟨"ALU_UNDEF_A", 0x0FE00000, 0x01400000, 0x001FFFFF⟩, ⟨"ALU_UNDEF_B", 0x0FE00000, 0x01600000, 0x001FFFFF⟩,
   ⟨"ALU_UNDEF_C", 0x0FE00000, 0x01800000, 0x001FFFFF⟩, ⟨"ALU_UNDEF_D", 0x0FE00000, 0x01A00000, 0x001FFFFF⟩,
   ⟨"ALU_UNDEF_E", 0x0FE00000, 0x01C00000, 0x001FFFFF⟩, ⟨"ALU_UNDEF_F", 0x0FE00000, 0x01E00000, 0x001FFFFF⟩]

/-- The stub and branch rows of R78 with R75's ignored bits. -/
def stubAndBranchRows : List OpcodeRow :=
  [⟨"MULDIV", 0x0E000000, 0x02000000, 0x01FFFFFF⟩, ⟨"LDST", 0x0E000000, 0x04000000, 0x01FFFFFF⟩,
   ⟨"B", 0x0E100000, 0x06000000, 0x01EFF000⟩, ⟨"BL", 0x0E100000, 0x06100000, 0x01EFF000⟩]

/-- The System rows of R78 with R75's ignored bits. -/
def systemRows : List OpcodeRow :=
  [⟨"MRS", 0x09E00000, 0x08000000, 0x061F0FFF⟩, ⟨"MSR", 0x09E00000, 0x08200000, 0x0610FFFF⟩,
   ⟨"SVC", 0x09E00000, 0x08400000, 0x061FFFFF⟩, ⟨"ERET", 0x09E00000, 0x08600000, 0x061FFFFF⟩,
   ⟨"SYS_NOP_4", 0x09E00000, 0x08800000, 0x061FFFFF⟩, ⟨"SYS_NOP_5", 0x09E00000, 0x08A00000, 0x061FFFFF⟩,
   ⟨"SYS_NOP_6", 0x09E00000, 0x08C00000, 0x061FFFFF⟩, ⟨"SYS_NOP_7", 0x09E00000, 0x08E00000, 0x061FFFFF⟩,
   ⟨"SYS_NOP_8", 0x09E00000, 0x09000000, 0x061FFFFF⟩, ⟨"SYS_NOP_9", 0x09E00000, 0x09200000, 0x061FFFFF⟩,
   ⟨"SYS_NOP_A", 0x09E00000, 0x09400000, 0x061FFFFF⟩, ⟨"SYS_NOP_B", 0x09E00000, 0x09600000, 0x061FFFFF⟩,
   ⟨"SYS_NOP_C", 0x09E00000, 0x09800000, 0x061FFFFF⟩, ⟨"SYS_NOP_D", 0x09E00000, 0x09A00000, 0x061FFFFF⟩,
   ⟨"SYS_NOP_E", 0x09E00000, 0x09C00000, 0x061FFFFF⟩, ⟨"SYS_NOP_F", 0x09E00000, 0x09E00000, 0x061FFFFF⟩]

/-- The complete opcode map (R78): 36 rows. -/
def opcodeMap : List OpcodeRow := aluRows ++ stubAndBranchRows ++ systemRows

/-- The word `w` belongs to the row (R78). -/
def OpcodeRow.has (row : OpcodeRow) (w : Word) : Bool := decide (w &&& row.mask = row.pattern)

end Sys2Proof.Machine
end

