-- ==== Sys2Proof/Certificates/Slice0/Obligations.lean ====
section
/-! DEFINITION. The statements for the provers. Each docstring names the rule of spec/ it formalises, and the log entry
where a clause rests on a choice. `s.PcAligned` is invariant (a) of R26, which every reachable state meets
(`ResetMeetsTheInvariant`, `StepKeepsTheInvariant`). -/

open Sys2Proof Sys2Proof.Machine

/-! ## Encoding and decoding -/

/-- Decode and encode agree on every well-formed instruction, with every operand (R70, R71, R78, R84). -/
def Obligations.DecodeEncodeRoundTrip : Prop := ∀ i : Instr, WellFormed i → decode (encode i) = i

/-- A word of a row of the opcode map decodes to that row's instruction, and encoding it again gives the word with the
bits R75 lists as ignored cleared: the decoder drops those bits and no other (R71, R75, R78; the encoder of R81 and
R84). The mnemonics are D2 (log 21). -/
def Obligations.EncodeDecodeClearsIgnoredBits : Prop :=
  ∀ row ∈ opcodeMap, ∀ w : Word, row.has w = true →
    (decode w).mnemonic = row.mnemonic ∧ encode (decode w) = w &&& ~~~ row.ignored

/-- Every word belongs to exactly one row of the opcode map, the row of the instruction it decodes to, and no row
fixes a condition bit (R78, with the mnemonics of D2: log 21). -/
def Obligations.OpcodeRowsAreDisjointAndCover : Prop :=
  (∀ w : Word, (opcodeMap.filter (fun row => row.has w)).map (fun row => row.mnemonic) = [(decode w).mnemonic]) ∧
  ∀ row ∈ opcodeMap, row.mask &&& 0xF0000000#32 = 0

/-- The decoded record's fields are the bits of the word (R71, R73), as numbers. -/
def Obligations.DecodedFieldsAreWordBits : Prop :=
  ∀ w : Word,
    (decodeFields w).raw = w ∧
    (decodeFields w).cond.code.toNat = w.toNat / 2 ^ 28 ∧
    (decodeFields w).cls = (match w.toNat / 2 ^ 25 % 8 with
      | 0 => InstrClass.alu | 1 => .mulDiv | 2 => .loadStore | 3 => .branch | _ => .system) ∧
    (decodeFields w).opcode.toNat = w.toNat / 2 ^ 21 % 16 ∧
    (decodeFields w).s = decide (w.toNat / 2 ^ 20 % 2 = 1) ∧
    (decodeFields w).rn = w.toNat / 2 ^ 16 % 16 ∧
    (decodeFields w).rd = w.toNat / 2 ^ 12 % 16 ∧
    (decodeFields w).rm = w.toNat % 16 ∧
    (decodeFields w).imm12.toNat = w.toNat % 4096

/-- The four System class encodings behave identically, and inside the class the opcode alone selects the
instruction (R170), the one of R171 to R175 and R78. The mnemonics that name it are D2 (log 21). -/
def Obligations.SystemClassEncodingsBehaveAlike : Prop :=
  (∀ (w w' : Word) (s : State), w.getLsbD 27 = true → w'.getLsbD 27 = true →
    w &&& 0xF9FFFFFF#32 = w' &&& 0xF9FFFFFF#32 → decode w = decode w' ∧ stepWord w s = stepWord w' s) ∧
  ∀ w : Word, w.getLsbD 27 = true →
    ["MRS", "MSR", "SVC", "ERET", "SYS_NOP_4", "SYS_NOP_5", "SYS_NOP_6", "SYS_NOP_7", "SYS_NOP_8", "SYS_NOP_9",
      "SYS_NOP_A", "SYS_NOP_B", "SYS_NOP_C", "SYS_NOP_D", "SYS_NOP_E", "SYS_NOP_F"][w.toNat / 2 ^ 21 % 16]? =
      some (decode w).mnemonic

/-- Every word decodes to a well-formed instruction: every decoded index is 0 to 15 (R74, R77). -/
def Obligations.EveryWordDecodesWellFormed : Prop := ∀ w : Word, WellFormed (decode w)

/-- Words of 95_test_vectors.md, one or more of every family, decode to the instructions they stand for. -/
def Obligations.SampleWordsDecode : Prop :=
  decode 0xE0101001 = .add .al true 1 0 1 ∧ decode 0xE0201FFF = .sub .al false 1 0 0xFFF ∧
  decode 0xE0510002 = .and .al true 0 1 2 ∧ decode 0xE0645004 = .orr .al false 5 4 4 ∧
  decode 0xE0F10002 = .tst .al 1 2 ∧ decode 0xE101000F = .cmp .al 1 15 ∧ decode 0xE1300000 = .aluUndef9 .al ∧
  decode 0xE3FFFFFF = .muldiv .al ∧ decode 0xE4FFFFFF = .ldst .al ∧ decode 0x16000FFD = .b .ne 0xFFD ∧
  decode 0xE6100801 = .bl .al 0x801 ∧ decode 0xE8005000 = .mrs .al 5 ∧ decode 0xE8230000 = .msr .al 3 ∧
  decode 0x08400000 = .svc .eq ∧ decode 0xF8600000 = .eret .nv ∧ decode 0xAD5A5A5A = .sysNopA .ge

/-- Branch offset assembly (R85): the immediate it gives reaches the target, and every target a branch reaches without
wrapping is assembled back to the branch's immediate. -/
def Obligations.BranchAssemblyReachesTarget : Prop :=
  (∀ (a target : Word) (imm : BitVec 12), a.toNat % 4 = 0 → branchImm a target = some imm →
    branchTarget a imm = target) ∧
  ∀ (a : Word) (imm : BitVec 12), a.toNat % 4 = 0 → 0 ≤ (a.toNat : Int) + 4 + 4 * imm.toInt →
    (a.toNat : Int) + 4 + 4 * imm.toInt < 2 ^ 32 → branchImm a (branchTarget a imm) = some imm

/-! ## The step -/

/-- When the four bytes at `pc` decode to `i`, a step is `exec i` (R50, R100). -/
def Obligations.StepRunsTheDecodedInstruction : Prop :=
  ∀ (s : State) (i : Instr),
    decodeBytes [s.imem.read s.pc, s.imem.read (s.pc + 1), s.imem.read (s.pc + 2), s.imem.read (s.pc + 3)] =
      .ok (i, []) → step s = exec i s

/-- The fetched word in little-endian order (R50, R53). The order is the spec's decision D7 (log 4). -/
def Obligations.FetchIsLittleEndian : Prop :=
  ∀ s : State, s.fetchWord.toNat = (s.imem.read s.pc).toNat + 2 ^ 8 * (s.imem.read (s.pc + 1)).toNat +
    2 ^ 16 * (s.imem.read (s.pc + 2)).toNat + 2 ^ 24 * (s.imem.read (s.pc + 3)).toNat

/-- A word stored where the machine fetches is the next one run, and storing it changes only its four bytes of the
image (R50; the image in State is log 1). -/
def Obligations.PlacedWordIsRunNext : Prop :=
  ∀ (s : State) (w : Nat), s.imem.wf = true → w < 2 ^ 32 →
    step (s.withFetchWord 32 w) = exec (decode (BitVec.ofNat 32 w)) (s.withFetchWord 32 w) ∧
    (s.withFetchWord 32 w).imem.wf = true ∧
    (∀ a : Word, a ≠ s.pc → a ≠ s.pc + 1 → a ≠ s.pc + 2 → a ≠ s.pc + 3 →
      (s.withFetchWord 32 w).imem.read a = s.imem.read a) ∧
    (∀ n, (s.withFetchWord 32 w).readReg n = s.readReg n) ∧
    (s.withFetchWord 32 w).psr = s.psr ∧ (s.withFetchWord 32 w).sys = s.sys

/-- The machine's step on a word is R100 as it stands: the condition, then dispatch by class to one of five units. -/
def Obligations.ExecAgreesWithTheOrchestrator : Prop :=
  ∀ (w : Word) (s : State), stepWord w s = orchestrate w s

/-- The step is total and cannot fail (R107): every run of any length from any state is safe. It rests on the default
of `r15DestPolicy` (D4, log 5) and on the zero of an unlisted image byte (log 2). -/
def Obligations.EveryRunIsSafe : Prop := ∀ (k : Nat) (s : State), RunsSafely k s

/-! ## Invariants and whole-machine rules -/

/-- Reset meets the invariant (R26, R230). That no image is listed, so every byte of it reads 0, is the model's choice
(logs 1, 2 and 3). -/
def Obligations.ResetMeetsTheInvariant : Prop := State.reset.Inv ∧ ∀ a : Word, State.reset.imem.read a = 0

/-- Every step keeps the invariant: `pc` is a multiple of 4 (R26), the image is in its canonical form. -/
def Obligations.StepKeepsTheInvariant : Prop := ∀ s t : State, s.Inv → step s = .next t → t.Inv

/-- No run changes the image or any system register but ELR and SPSR: no instruction accesses memory (R51) or names a
system register (R42), CNT never counts (R217, C5; D10, D11, logs 12 and 14), no fault is recorded (R222). -/
def Obligations.RunsKeepImageAndSystemRegisters : Prop :=
  ∀ (k : Nat) (s t : State), Sys2Proof.core.run k s = .next t →
    t.imem = s.imem ∧ ImageKept s t ∧ t.sys = { s.sys with elr := t.sys.elr, spsr := t.sys.spsr }

/-- ELR and SPSR change only where a supervisor call enters the exception, and then hold its address and the status
before it (R28, R41). -/
def Obligations.ExceptionPairChangesOnlyBySvc : Prop :=
  ∀ s t : State, step s = .next t → (t.sys.elr ≠ s.sys.elr ∨ t.sys.spsr ≠ s.sys.spsr) →
    ∃ c, decode s.fetchWord = .svc c ∧ s.psr.passes c = true ∧ t.sys.elr = s.pc ∧ t.sys.spsr = encodePsr s.psr

/-- How the mode changes (R213): reset and exception entry set P, MSR and ERET set it to bit 0 of their source, and no
other instruction, nor any whose condition fails, changes it. -/
def Obligations.ModeChangesOnlyAsListed : Prop :=
  (∀ s : State, (hostReset s).psr.p = true) ∧
  (∀ (s : State) (off : Word), (s.enterException off).psr.p = true) ∧
  ∀ (i : Instr) (s t : State), exec i s = .next t →
    t.psr.p = if s.psr.passes i.cond = true then
      (match i with
        | .svc _ => true
        | .msr _ rn => (s.readReg rn).getLsbD 0
        | .eret _ => s.sys.spsr.getLsbD 0
        | _ => s.psr.p)
      else s.psr.p

/-- A register r0 to r12, sp or lr changes only as the destination of an instruction whose condition passed, or as
the link of BL (R28; for destination 15 see D4, log 5). -/
def Obligations.RegistersChangeOnlyAsDestinations : Prop :=
  ∀ (i : Instr) (s t : State) (n : Nat), exec i s = .next t → n < 15 → t.readReg n ≠ s.readReg n →
    s.psr.passes i.cond = true ∧ (i.destination = some n ∨ (n = 14 ∧ ∃ c imm, i = .bl c imm))

/-- Who writes which flag (R30): N and Z, C and V, I and F, P change only by the instructions their row lists. -/
def Obligations.FlagsChangeOnlyAsListed : Prop :=
  ∀ (i : Instr) (s t : State), exec i s = .next t →
    (mayWriteNZ i = false → t.psr.n = s.psr.n ∧ t.psr.z = s.psr.z) ∧
    (mayWriteCV i = false → t.psr.c = s.psr.c ∧ t.psr.v = s.psr.v) ∧
    (mayWriteMasks i = false → t.psr.i = s.psr.i ∧ t.psr.f = s.psr.f) ∧
    (mayWritePrivilege i = false → t.psr.p = s.psr.p)

/-- Nothing depends on the mode or the masks (R214, R215; no privilege check is D8, log 11; no interrupt is D12,
log 16): two states that differ only in I, F and P both complete, and agree after any instruction on `pc`, N, Z, C, V,
the image, every register but the destination of MRS, and every system register but the status SVC saves. That a data
instruction with destination 15 completes, and that an MRS with destination 15 leaves the two `pc` equal, is D4
(log 5). -/
def Obligations.ModeAndMasksDecideNothing : Prop :=
  ∀ (i : Instr) (s : State) (bi bf bp : Bool), ∃ t t' : State,
    exec i s = .next t ∧ exec i (s.setPsr { s.psr with i := bi, f := bf, p := bp }) = .next t' ∧
    t'.pc = t.pc ∧ t'.imem = t.imem ∧
    t'.psr.n = t.psr.n ∧ t'.psr.z = t.psr.z ∧ t'.psr.c = t.psr.c ∧ t'.psr.v = t.psr.v ∧
    (∀ n, n < 15 → (∀ c, i ≠ .mrs c n) → t'.readReg n = t.readReg n) ∧
    { t'.sys with spsr := t.sys.spsr } = t.sys ∧ ((∀ c, i ≠ .svc c) → t'.sys.spsr = t.sys.spsr)

/-- The next `pc` of every instruction (R27), in either mode. A data write to index 15 is superseded: D4, log 5. The
branch target is R160's with one sign extension to 32 bits in place of its two stages, which the spec infers to be
equal: C2, log 20 (`BranchDisplacementIsExact`). No privilege check is D8, log 11. -/
def Obligations.NextPcOfEveryInstruction : Prop :=
  ∀ (i : Instr) (s : State), s.PcAligned → ∃ t, exec i s = .next t ∧
    t.pc = if s.psr.passes i.cond = true then
      (match i with
        | .b _ imm => align4 (s.pc + 4#32 + imm.signExtend 32 <<< 2)
        | .bl _ imm => align4 (s.pc + 4#32 + imm.signExtend 32 <<< 2)
        | .svc _ => align4 (align1K s.sys.vbar + 0x08)
        | .eret _ => align4 s.sys.elr
        | _ => s.pc + 4)
      else s.pc + 4

/-! ## Conditions -/

/-- The truth table of the conditions by code (R104, 95_test_vectors.md L2.2). The numbering is D1 (log 6). -/
def Obligations.ConditionTruthTable : Prop :=
  ∀ (k : BitVec 4) (n z c v : Bool),
    condPasses (condOfCode k) n z c v =
      (([0xF0F0, 0x0F0F, 0xCCCC, 0x3333, 0xFF00, 0x00FF, 0xAAAA, 0x5555, 0x0C0C, 0xF3F3, 0xAA55, 0x55AA, 0x0A05,
        0xF5FA, 0xFFFF, 0x0000] : List (BitVec 16)).getD k.toNat 0).getLsbD
          (8 * n.toNat + 4 * z.toNat + 2 * c.toNat + v.toNat)

/-- The evaluator reads only N, Z, C and V; AL always passes, NV never (R105). -/
def Obligations.ConditionReadsOnlyArithmeticFlags : Prop :=
  (∀ (c : Cond) (p q : Psr), p.n = q.n → p.z = q.z → p.c = q.c → p.v = q.v → p.passes c = q.passes c) ∧
  ∀ p : Psr, p.passes .al = true ∧ p.passes .nv = false

/-- A failed condition leaves everything but `pc`, which advances by 4: any instruction (R103). -/
def Obligations.FailedConditionOnlyAdvances : Prop :=
  ∀ (i : Instr) (s : State), s.PcAligned → s.psr.passes i.cond = false →
    exec i s = .next { s with pc := s.pc + 4 }

/-! ## ALU -/

/-- The carry and overflow of an addition, overflow in both of R121's forms. -/
def Obligations.AddFlagsBothForms : Prop :=
  ∀ a b : Word,
    addCarry a b = decide (2 ^ 32 ≤ a.toNat + b.toNat) ∧
    addOverflow a b = decide (a.toInt + b.toInt < -2 ^ 31 ∨ 2 ^ 31 - 1 < a.toInt + b.toInt) ∧
    addOverflow a b = (decide (a.msb = b.msb) && decide ((a + b).msb ≠ a.msb))

/-- The carry and overflow of a subtraction (R122). The exact reading of overflow at the subtrahend 0x8000_0000 is the
spec's own (X9, G3; log 9). -/
def Obligations.SubFlagsBothForms : Prop :=
  ∀ a b : Word,
    subCarry a b = !decide (a.toNat < b.toNat) ∧
    subOverflow a b = decide (a.toInt - b.toInt < -2 ^ 31 ∨ 2 ^ 31 - 1 < a.toInt - b.toInt) ∧
    subOverflow a b = (decide (a.msb ≠ b.msb) && decide ((a - b).msb ≠ a.msb))

/-- ADD (R124, with R123; zero extension D3, destination 15 D4, source 15 D5: logs 7, 5, 8; N and Z: log 10). -/
def Obligations.AddCompletes : Prop :=
  ∀ (c : Cond) (f : Bool) (rd rn : Nat) (imm : BitVec 12) (s : State), s.PcAligned → s.psr.passes c = true →
    ∃ t, exec (.add c f rd rn imm) s = .next t ∧ DataResult rd (s.readReg rn + imm.setWidth 32) s t ∧
      t.psr = if f then
        { s.psr with
          n := (s.readReg rn + imm.setWidth 32).msb
          z := decide ((s.readReg rn).toNat + imm.toNat = 0 ∨ (s.readReg rn).toNat + imm.toNat = 2 ^ 32)
          c := decide (2 ^ 32 ≤ (s.readReg rn).toNat + imm.toNat)
          v := decide ((s.readReg rn).toInt + imm.toNat < -2 ^ 31 ∨ 2 ^ 31 - 1 < (s.readReg rn).toInt + imm.toNat) }
        else s.psr

/-- SUB (R125, with R122 and R123; D3, D4, D5: logs 7, 5, 8; N and Z: log 10; overflow X9: log 9). -/
def Obligations.SubCompletes : Prop :=
  ∀ (c : Cond) (f : Bool) (rd rn : Nat) (imm : BitVec 12) (s : State), s.PcAligned → s.psr.passes c = true →
    ∃ t, exec (.sub c f rd rn imm) s = .next t ∧ DataResult rd (s.readReg rn - imm.setWidth 32) s t ∧
      t.psr = if f then
        { s.psr with
          n := (s.readReg rn - imm.setWidth 32).msb
          z := decide ((s.readReg rn).toNat = imm.toNat)
          c := decide (imm.toNat ≤ (s.readReg rn).toNat)
          v := decide ((s.readReg rn).toInt - imm.toNat < -2 ^ 31 ∨ 2 ^ 31 - 1 < (s.readReg rn).toInt - imm.toNat) }
        else s.psr

/-- AND, ORR and EOR (R126 to R128; N and Z by R123, D4, D5: logs 10, 5, 8). -/
def Obligations.BitwiseInstructionsComplete : Prop :=
  ∀ (c : Cond) (f : Bool) (rd rn rm : Nat) (s : State), s.PcAligned → s.psr.passes c = true →
    (∃ t, exec (.and c f rd rn rm) s = .next t ∧ LogicResult f rd (s.readReg rn &&& s.readReg rm) s t) ∧
    (∃ t, exec (.orr c f rd rn rm) s = .next t ∧ LogicResult f rd (s.readReg rn ||| s.readReg rm) s t) ∧
    ∃ t, exec (.eor c f rd rn rm) s = .next t ∧ LogicResult f rd (s.readReg rn ^^^ s.readReg rm) s t

/-- MOV and MVN (R129, R130; N and Z by R123, D3, D4, D5: logs 10, 7, 5, 8). -/
def Obligations.MovesComplete : Prop :=
  ∀ (c : Cond) (f : Bool) (rd rm : Nat) (imm : BitVec 12) (s : State), s.PcAligned → s.psr.passes c = true →
    (∃ t, exec (.mov c f rd imm) s = .next t ∧ LogicResult f rd (imm.setWidth 32) s t ∧
      (f = true → t.psr.n = false)) ∧
    ∃ t, exec (.mvn c f rd rm) s = .next t ∧ LogicResult f rd (~~~ s.readReg rm) s t

/-- TST writes N and Z, holds C and V, writes no register (R131; N and Z by R123, source 15 by D5: logs 10, 8). -/
def Obligations.TestCompletes : Prop :=
  ∀ (c : Cond) (rn rm : Nat) (s : State), s.PcAligned → s.psr.passes c = true →
    exec (.tst c rn rm) s = .next
      { s with
        psr := { s.psr with
          n := (s.readReg rn &&& s.readReg rm).msb
          z := decide (s.readReg rn &&& s.readReg rm = 0) }
        pc := s.pc + 4 }

/-- CMP writes N, Z, C and V, writes no register (R132; R122's reading of overflow, R123, D5: logs 9, 10, 8). -/
def Obligations.CompareCompletes : Prop :=
  ∀ (c : Cond) (rn rm : Nat) (s : State), s.PcAligned → s.psr.passes c = true →
    exec (.cmp c rn rm) s = .next
      { s with
        psr := { s.psr with
          n := (s.readReg rn - s.readReg rm).msb
          z := decide (s.readReg rn = s.readReg rm)
          c := decide ((s.readReg rm).toNat ≤ (s.readReg rn).toNat)
          v := decide ((s.readReg rn).toInt - (s.readReg rm).toInt < -2 ^ 31 ∨
            2 ^ 31 - 1 < (s.readReg rn).toInt - (s.readReg rm).toInt) }
        pc := s.pc + 4 }

/-- ALU opcodes 0x9 to 0xF do nothing but advance `pc`, whatever their condition and S, as instructions and as words
(R133). -/
def Obligations.UndefinedAluOpcodesOnlyAdvance : Prop :=
  (∀ (c : Cond) (i : Instr) (s : State),
    i ∈ [Instr.aluUndef9 c, .aluUndefA c, .aluUndefB c, .aluUndefC c, .aluUndefD c, .aluUndefE c, .aluUndefF c] →
    s.PcAligned → exec i s = .next { s with pc := s.pc + 4 }) ∧
  ∀ (w : Word) (s : State),
    w &&& 0x0FE00000#32 ∈ [0x01200000#32, 0x01400000#32, 0x01600000#32, 0x01800000#32, 0x01A00000#32, 0x01C00000#32,
      0x01E00000#32] → s.PcAligned → stepWord w s = .next { s with pc := s.pc + 4 }

/-- A data instruction with destination 15 under each value of `r15DestPolicy` (R134). The model's value is
`supersede`: D4, log 5. -/
def Obligations.DestinationFifteenByPolicy : Prop :=
  ∀ (v : Word) (p : Psr) (s : State), s.PcAligned →
    writeResult .supersede 15 v p s = .next { s with psr := p, pc := s.pc + 4 } ∧
    writeResult .writeThenAdvance 15 v p s = .next { s with psr := p, pc := align4 v + 4 } ∧
    writeResult .refuse 15 v p s = .refused .r15Destination ∧
    (params.r15DestPolicy = .supersede) ∧
    ∀ (policy : R15DestPolicy) (rd : Nat), rd ≠ 15 →
      writeResult policy rd v p s = writeResult .supersede rd v p s

/-- Source index 15 is the address of the instruction itself, with no pipeline offset (R135; D5, log 8), in every
instruction that reads a register and as either source: its result is the one computed from `pc`. The zero-extended
immediate of ADD and SUB is D3 (log 7), N and Z of TST and CMP are R123 (log 10), the overflow of CMP is X9 (log 9),
MSR in either mode is D8 (log 11). -/
def Obligations.SourceFifteenIsOwnAddress : Prop :=
  (∀ s : State, s.readReg 15 = s.pc) ∧
  (∀ (c : Cond) (f : Bool) (rd n : Nat) (imm : BitVec 12) (s : State), s.psr.passes c = true → rd < 15 →
    (∃ t, exec (.add c f rd 15 imm) s = .next t ∧ t.readReg rd = s.pc + imm.setWidth 32) ∧
    (∃ t, exec (.sub c f rd 15 imm) s = .next t ∧ t.readReg rd = s.pc - imm.setWidth 32) ∧
    (∃ t, exec (.and c f rd 15 n) s = .next t ∧ t.readReg rd = s.pc &&& s.readReg n) ∧
    (∃ t, exec (.and c f rd n 15) s = .next t ∧ t.readReg rd = s.readReg n &&& s.pc) ∧
    (∃ t, exec (.orr c f rd 15 n) s = .next t ∧ t.readReg rd = s.pc ||| s.readReg n) ∧
    (∃ t, exec (.orr c f rd n 15) s = .next t ∧ t.readReg rd = s.readReg n ||| s.pc) ∧
    (∃ t, exec (.eor c f rd 15 n) s = .next t ∧ t.readReg rd = s.pc ^^^ s.readReg n) ∧
    (∃ t, exec (.eor c f rd n 15) s = .next t ∧ t.readReg rd = s.readReg n ^^^ s.pc) ∧
    ∃ t, exec (.mvn c f rd 15) s = .next t ∧ t.readReg rd = ~~~ s.pc) ∧
  ∀ (c : Cond) (n : Nat) (s : State), s.psr.passes c = true →
    (∃ t, exec (.tst c 15 n) s = .next t ∧ NZOf (s.pc &&& s.readReg n) t) ∧
    (∃ t, exec (.tst c n 15) s = .next t ∧ NZOf (s.readReg n &&& s.pc) t) ∧
    (∃ t, exec (.cmp c 15 n) s = .next t ∧ DifferenceFlags s.pc (s.readReg n) t) ∧
    (∃ t, exec (.cmp c n 15) s = .next t ∧ DifferenceFlags (s.readReg n) s.pc t) ∧
    ∃ t, exec (.msr c 15) s = .next t ∧ t.psr = Psr.mk (s.pc.getLsbD 31) (s.pc.getLsbD 30) (s.pc.getLsbD 29)
      (s.pc.getLsbD 28) (s.pc.getLsbD 7) (s.pc.getLsbD 6) (s.pc.getLsbD 0)

/-! ## Multiply/divide and load/store -/

/-- The multiply/divide and load/store classes do nothing but advance `pc`, for every word of them, whatever the
condition (R150, R151). -/
def Obligations.StubClassesOnlyAdvance : Prop :=
  (∀ (c : Cond) (s : State), s.PcAligned →
    exec (.muldiv c) s = .next { s with pc := s.pc + 4 } ∧ exec (.ldst c) s = .next { s with pc := s.pc + 4 }) ∧
  ∀ (w : Word) (s : State), (w &&& 0x0E000000#32 = 0x02000000#32 ∨ w &&& 0x0E000000#32 = 0x04000000#32) →
    s.PcAligned → stepWord w s = .next { s with pc := s.pc + 4 }

/-! ## Branches -/

/-- B, as an instruction and as every word of its row: `pc` goes to the target of R160 and nothing else changes
(R161). -/
def Obligations.BranchCompletes : Prop :=
  (∀ (c : Cond) (imm : BitVec 12) (s : State), s.psr.passes c = true →
    exec (.b c imm) s = .next { s with pc := align4 (s.pc + 4#32 + (imm.signExtend 16).signExtend 32 <<< 2) }) ∧
  ∀ (w : Word) (s : State), w &&& 0x0E100000#32 = 0x06000000#32 →
    s.psr.passes (condOfCode (w.extractLsb' 28 4)) = true →
    stepWord w s =
      .next { s with pc := align4 (s.pc + 4#32 + ((w.extractLsb' 0 12).signExtend 16).signExtend 32 <<< 2) }

/-- BL, as an instruction and as every word of its row: the link register gets `pc0 + 4`, `pc` the target computed
from `pc0`, and no flag changes (R162). -/
def Obligations.BranchWithLinkCompletes : Prop :=
  (∀ (c : Cond) (imm : BitVec 12) (s : State), s.psr.passes c = true →
    exec (.bl c imm) s =
      .next { s with lr := s.pc + 4, pc := align4 (s.pc + 4#32 + (imm.signExtend 16).signExtend 32 <<< 2) }) ∧
  ∀ (w : Word) (s : State), w &&& 0x0E100000#32 = 0x06100000#32 →
    s.psr.passes (condOfCode (w.extractLsb' 28 4)) = true →
    stepWord w s = .next
      { s with lr := s.pc + 4, pc := align4 (s.pc + 4#32 + ((w.extractLsb' 0 12).signExtend 16).signExtend 32 <<< 2) }

/-- The two-stage sign extension removes no displacement: it is four times the signed immediate, from -8192 to 8188,
the same as one extension to 32 bits, and from an aligned `pc` the target needs no alignment (R160's inference; C2,
log 20). -/
def Obligations.BranchDisplacementIsExact : Prop :=
  ∀ (imm : BitVec 12) (pc0 : Word), pc0.toNat % 4 = 0 →
    (branchDisp imm).toInt = 4 * imm.toInt ∧ -8192 ≤ (branchDisp imm).toInt ∧ (branchDisp imm).toInt ≤ 8188 ∧
    branchDisp imm = imm.signExtend 32 <<< 2 ∧ branchTarget pc0 imm = pc0 + 4 + branchDisp imm

/-! ## System and exceptions -/

/-- The packed status word bit by bit, and its decoding (R31, R32). -/
def Obligations.StatusCodecBits : Prop :=
  (∀ (p : Psr) (k : Nat), (encodePsr p).getLsbD k =
    if k = 31 then p.n else if k = 30 then p.z else if k = 29 then p.c else if k = 28 then p.v
    else if k = 7 then p.i else if k = 6 then p.f else if k = 0 then p.p else false) ∧
  ∀ w : Word, decodePsr w = Psr.mk (w.getLsbD 31) (w.getLsbD 30) (w.getLsbD 29) (w.getLsbD 28) (w.getLsbD 7)
    (w.getLsbD 6) (w.getLsbD 0)

/-- The codec laws (R33; the second is the spec's inference). -/
def Obligations.StatusCodecLaws : Prop :=
  (∀ p : Psr, decodePsr (encodePsr p) = p) ∧ ∀ w : Word, encodePsr (decodePsr w) = w &&& 0xF00000C1#32

/-- MRS copies the packed status word, in either mode (R171; destination 15 is D4, log 5; no privilege check is D8,
log 11). -/
def Obligations.StatusReadCompletes : Prop :=
  ∀ (c : Cond) (rd : Nat) (s : State), s.PcAligned → s.psr.passes c = true →
    ∃ t, exec (.mrs c rd) s = .next t ∧ DataResult rd (encodePsr s.psr) s t ∧ t.psr = s.psr

/-- MSR replaces the whole status word, in either mode (R172; source 15 is D5, log 8; no privilege check is D8,
log 11). -/
def Obligations.StatusWriteCompletes : Prop :=
  ∀ (c : Cond) (rn : Nat) (s : State), s.PcAligned → s.psr.passes c = true →
    exec (.msr c rn) s = .next
      { s with
        psr := Psr.mk ((s.readReg rn).getLsbD 31) ((s.readReg rn).getLsbD 30) ((s.readReg rn).getLsbD 29)
          ((s.readReg rn).getLsbD 28) ((s.readReg rn).getLsbD 7) ((s.readReg rn).getLsbD 6) ((s.readReg rn).getLsbD 0)
        pc := s.pc + 4 }

/-- The exception-entry protocol for any offset, and SVC, as an instruction and as every word of its row: ELR gets the
address of the SVC itself, SPSR the status before entry, P is set, `pc` goes to offset 0x08 of the table, and nothing
else changes (R173, R201, R204). -/
def Obligations.SupervisorCallEntersException : Prop :=
  (∀ (s : State) (off : Word), s.enterException off =
    { s with
      sys := { s.sys with elr := s.pc, spsr := encodePsr s.psr }
      psr := { s.psr with p := true }
      pc := align4 ((s.sys.vbar &&& ~~~ 0x3FF#32) + off) }) ∧
  (∀ (c : Cond) (s : State), s.psr.passes c = true →
    exec (.svc c) s = .next
      { s with
        sys := { s.sys with elr := s.pc, spsr := encodePsr s.psr }
        psr := { s.psr with p := true }
        pc := (s.sys.vbar &&& ~~~ 0x3FF#32) + 0x08#32 }) ∧
  ∀ w : Word, w &&& 0x09E00000#32 = 0x08400000#32 → decode w = .svc (condOfCode (w.extractLsb' 28 4))

/-- ERET restores all seven fields from SPSR and goes to ELR, aligned, as an instruction and as every word of its row;
after an entry it gives back the status before it and the address of the SVC (R174, R207). That it completes in either
mode, with no privilege check, is D8 (R176; log 11). -/
def Obligations.ExceptionReturnRestores : Prop :=
  (∀ (c : Cond) (s : State), s.psr.passes c = true →
    exec (.eret c) s = .next { s with psr := decodePsr s.sys.spsr, pc := align4 s.sys.elr }) ∧
  (∀ (c c' : Cond) (s t : State), s.PcAligned → s.psr.passes c = true → exec (.svc c) s = .next t →
    t.psr.passes c' = true → ∃ u, exec (.eret c') t = .next u ∧ u.psr = s.psr ∧ u.pc = s.pc) ∧
  ∀ w : Word, w &&& 0x09E00000#32 = 0x08600000#32 → decode w = .eret (condOfCode (w.extractLsb' 28 4))

/-- Returning from a supervisor call re-executes it (R210): after SVC and ERET the state is the one before but for ELR
and SPSR, the SVC's condition passes again, and the SVC enters the same state again. -/
def Obligations.ReturnReexecutesSupervisorCall : Prop :=
  ∀ (c : Cond) (s : State), s.PcAligned → s.psr.passes c = true →
    ∃ t u, exec (.svc c) s = .next t ∧ exec (.eret .al) t = .next u ∧
      u = { s with sys := { s.sys with elr := s.pc, spsr := encodePsr s.psr } } ∧
      u.psr.passes c = true ∧ exec (.svc c) u = .next t

/-- A nested SVC overwrites ELR and SPSR (R209). In any state with P true, whatever ran since the first entry: ELR
gets the SVC's own address and SPSR the status there, in which P is set; P stays true, the rest is as at any entry; and
the next state is the same whatever ELR and SPSR held, so the outer return is lost. An entry leaves such a state, and an
SVC that is the handler's first instruction enters again. -/
def Obligations.NestedSupervisorCallLosesOuterReturn : Prop :=
  (∀ (c : Cond) (s : State), s.psr.p = true → s.psr.passes c = true →
    ∃ u, exec (.svc c) s = .next u ∧ u.sys.elr = s.pc ∧ u.sys.spsr = encodePsr s.psr ∧
      u.sys.spsr.getLsbD 0 = true ∧
      u = { s with sys := { s.sys with elr := s.pc, spsr := encodePsr s.psr }
                   pc := (s.sys.vbar &&& ~~~ 0x3FF#32) + 0x08#32 } ∧
      ∀ elr spsr : Word, exec (.svc c) { s with sys := { s.sys with elr := elr, spsr := spsr } } = .next u) ∧
  ∀ (c c' : Cond) (s t : State), s.psr.passes c = true → exec (.svc c) s = .next t → t.psr.passes c' = true →
    t.psr.p = true ∧
    ∃ u, exec (.svc c') t = .next u ∧ u.sys.elr = t.pc ∧ u.sys.spsr = encodePsr t.psr ∧
      u.sys.spsr.getLsbD 0 = true ∧ u.psr = t.psr ∧ u.pc = t.pc

/-- System opcodes 0x4 to 0xF do nothing but advance `pc`, whatever their condition, as instructions and as words
(R175). -/
def Obligations.SystemNoOpsOnlyAdvance : Prop :=
  (∀ (c : Cond) (i : Instr) (s : State),
    i ∈ [Instr.sysNop4 c, .sysNop5 c, .sysNop6 c, .sysNop7 c, .sysNop8 c, .sysNop9 c, .sysNopA c, .sysNopB c,
      .sysNopC c, .sysNopD c, .sysNopE c, .sysNopF c] →
    s.PcAligned → exec i s = .next { s with pc := s.pc + 4 }) ∧
  ∀ (w : Word) (s : State),
    w &&& 0x09E00000#32 ∈ [0x08800000#32, 0x08A00000#32, 0x08C00000#32, 0x08E00000#32, 0x09000000#32, 0x09200000#32,
      0x09400000#32, 0x09600000#32, 0x09800000#32, 0x09A00000#32, 0x09C00000#32, 0x09E00000#32] →
    s.PcAligned → stepWord w s = .next { s with pc := s.pc + 4 }

/-! ## Reset and the host interface -/

/-- Reset from any state clears every register and every system register, sets the status word to P alone and `pc` to
the reset vector, and `State.reset` is that state but for the image (R230). The image, which reset keeps (R235), is a
field of State by the model's choice (log 1). -/
def Obligations.ResetLeavesTheStatedValues : Prop :=
  (∀ s : State, hostReset s = { State.reset with imem := s.imem }) ∧
  (∀ n, n < 16 → State.reset.readReg n = 0) ∧ State.reset.pc = 0 ∧
  State.reset.psr = Psr.mk false false false false false false true ∧ encodePsr State.reset.psr = 0x00000001#32 ∧
  State.reset.sys = SysRegs.mk 0 0 0 0 0 0 0 0 0 0 0 0

/-- The host's register access: a written index 0 to 14 reads back, index 15 reads back aligned, every other index is
kept, and an index outside 0 to 15 reads zero and writes nothing (R23, R24, R26; the index domain is D18, log 19). -/
def Obligations.HostRegisterAccess : Prop :=
  ∀ (s : State) (i j : Nat) (v : Word),
    (i < 15 → hostGet (hostSet s i v) i = v) ∧ (hostSet s 15 v).pc.toNat = v.toNat / 4 * 4 ∧
    (i ≠ j → hostGet (hostSet s i v) j = hostGet s j) ∧
    (16 ≤ i → hostGet s i = 0 ∧ hostSet s i v = s) ∧
    (hostSet s i v).psr = s.psr ∧ (hostSet s i v).sys = s.sys ∧ (hostSet s i v).imem = s.imem

/-- VBAR is stored as written and used with its low 10 bits cleared: they never matter to an entry (R36). -/
def Obligations.VectorBaseIsMaskedOnUse : Prop :=
  (∀ (s : State) (v : Word), hostReadSys (hostWriteSys s .vbar v) .vbar = v) ∧
  (∀ (s : State) (v : Word), ((hostWriteSys s .vbar v).enterException svcOffset).pc.toNat =
    v.toNat / 1024 * 1024 + 8) ∧
  (∀ (s : State) (v v' off : Word), v.toNat / 1024 = v'.toNat / 1024 →
    ((hostWriteSys s .vbar v).enterException off).pc = ((hostWriteSys s .vbar v').enterException off).pc) ∧
  State.reset.sys.vbar = 0

/-- The host's system register access: a written register reads back, and every other register of the block, the
register file, the status word and the image are kept (R36 to R41, R236). -/
def Obligations.HostSystemRegisterAccess : Prop :=
  (∀ (s : State) (g g' : SysReg) (h : SysReg64) (v : Word),
    hostReadSys (hostWriteSys s g v) g' = (if g = g' then v else hostReadSys s g') ∧
    hostReadSys64 (hostWriteSys s g v) h = hostReadSys64 s h ∧
    (hostWriteSys s g v).psr = s.psr ∧ (∀ n, (hostWriteSys s g v).readReg n = s.readReg n) ∧
    (hostWriteSys s g v).imem = s.imem) ∧
  ∀ (s : State) (g : SysReg) (h h' : SysReg64) (v : DWord),
    hostReadSys64 (hostWriteSys64 s h v) h' = (if h = h' then v else hostReadSys64 s h') ∧
    hostReadSys (hostWriteSys64 s h v) g = hostReadSys s g ∧
    (hostWriteSys64 s h v).psr = s.psr ∧ (∀ n, (hostWriteSys64 s h v).readReg n = s.readReg n) ∧
    (hostWriteSys64 s h v).imem = s.imem

/-- The platform's address map as ranges, with the specific ranges before generic MMIO and the gaps unknown (R57,
R58). -/
def Obligations.AddressMapRanges : Prop :=
  ∀ a : Word,
    (classify a = .rom ↔ a.toNat < 0x08000000) ∧
    (classify a = .ram ↔ 0x10000000 ≤ a.toNat ∧ a.toNat < 0x30000000) ∧
    (classify a = .vram ↔ 0x30000000 ≤ a.toNat ∧ a.toNat < 0x38000000) ∧
    (classify a = .uart0 ↔ 0x40002000 ≤ a.toNat ∧ a.toNat < 0x40003000) ∧
    (classify a = .storageController ↔ 0x40010000 ≤ a.toNat ∧ a.toNat < 0x40020000) ∧
    (classify a = .blockStorage ↔ 0x50000000 ≤ a.toNat ∧ a.toNat < 0x60000000) ∧
    (classify a = .genericMmio ↔ 0x40000000 ≤ a.toNat ∧ a.toNat < 0x80000000 ∧
      ¬ (0x40002000 ≤ a.toNat ∧ a.toNat < 0x40003000) ∧ ¬ (0x40010000 ≤ a.toNat ∧ a.toNat < 0x40020000) ∧
      ¬ (0x50000000 ≤ a.toNat ∧ a.toNat < 0x60000000)) ∧
    (classify a = .unknown ↔ (0x08000000 ≤ a.toNat ∧ a.toNat < 0x10000000) ∨
      (0x38000000 ≤ a.toNat ∧ a.toNat < 0x40000000) ∨ 0x80000000 ≤ a.toNat)
end

