-- ==== Sys2Proof/Laws/Bits.lean ====
section
/-! SUPPORT. Lemmas about the bit-field helpers (R9, R53, R160). -/

namespace Sys2Proof.Machine

/-- `align4` as arithmetic: down to the multiple of 4. -/
theorem align4_toNat (w : Word) : (align4 w).toNat = w.toNat / 4 * 4 := by
  have h : align4 w = w >>> 2 <<< 2 := by
    apply BitVec.eq_of_getLsbD_eq
    intro i hi
    interval_cases i <;> simp [align4]
  rw [h]
  simp only [BitVec.toNat_shiftLeft, BitVec.toNat_ushiftRight, Nat.shiftLeft_eq, Nat.shiftRight_eq_div_pow]
  omega

/-- Every aligned value is a multiple of 4. -/
@[simp] theorem align4_toNat_mod (w : Word) : (align4 w).toNat % 4 = 0 := by
  rw [align4_toNat]; omega

/-- `align4` keeps a multiple of 4. -/
theorem align4_of_aligned {w : Word} (h : w.toNat % 4 = 0) : align4 w = w := by
  apply BitVec.eq_of_toNat_eq
  rw [align4_toNat]; omega

/-- `align4` twice is `align4`. -/
@[simp] theorem align4_align4 (w : Word) : align4 (align4 w) = align4 w := align4_of_aligned (align4_toNat_mod w)

/-- The next word's address is aligned when this one's is. -/
theorem align4_add_four {w : Word} (h : w.toNat % 4 = 0) : align4 (w + 4) = w + 4 := by
  apply align4_of_aligned
  have h4 : (4 : Word).toNat = 4 := rfl
  rw [BitVec.toNat_add, h4]; omega

/-- `align1K` as arithmetic: down to the multiple of 1024. -/
theorem align1K_toNat (w : Word) : (align1K w).toNat = w.toNat / 1024 * 1024 := by
  have h : align1K w = w >>> 10 <<< 10 := by
    apply BitVec.eq_of_getLsbD_eq
    intro i hi
    interval_cases i <;> simp [align1K]
  rw [h]
  simp only [BitVec.toNat_shiftLeft, BitVec.toNat_ushiftRight, Nat.shiftLeft_eq, Nat.shiftRight_eq_div_pow]
  omega

/-- A zero-extended immediate keeps its value. -/
@[simp] theorem zext32_toNat (imm : BitVec 12) : (zext32 imm).toNat = imm.toNat := by
  have := imm.isLt
  simp only [zext32, BitVec.toNat_setWidth]; omega

/-- The four bytes of a word, put together again, are the word (R53), in either byte order. -/
@[simp] theorem wordOfBytes_byteOfWord (e : Endian) (w : Word) :
    wordOfBytes e (byteOfWord e w 0) (byteOfWord e w 1) (byteOfWord e w 2) (byteOfWord e w 3) = w := by
  apply BitVec.eq_of_getLsbD_eq
  intro i hi
  cases e <;> interval_cases i <;>
    simp [wordOfBytes, byteOfWord]

end Sys2Proof.Machine
end

