-- ==== Sys2Proof/Laws/Decode.lean ====
section
/-! SUPPORT. What the fields of an encoded word are (R71 after R84). -/

namespace Sys2Proof

/-- A condition's code decodes to it. -/
@[simp] theorem condOfCode_code (c : Cond) : condOfCode c.code = c := by cases c <;> rfl

/-- A code's condition has that code. -/
@[simp] theorem code_condOfCode (k : BitVec 4) : (condOfCode k).code = k := by
  revert k; decide

section
variable (cond : BitVec 4) (cls : BitVec 3) (op : BitVec 4) (s : Bool) (rn rd : BitVec 4) (low : BitVec 12)

@[simp] theorem encodeFields_cond : (encodeFields cond cls op s rn rd low).extractLsb' 28 4 = cond := by
  apply BitVec.eq_of_getLsbD_eq
  intro i hi
  interval_cases i <;> simp [encodeFields]

@[simp] theorem encodeFields_cls : (encodeFields cond cls op s rn rd low).extractLsb' 25 3 = cls := by
  apply BitVec.eq_of_getLsbD_eq
  intro i hi
  interval_cases i <;> simp [encodeFields]

@[simp] theorem encodeFields_opcode : (encodeFields cond cls op s rn rd low).extractLsb' 21 4 = op := by
  apply BitVec.eq_of_getLsbD_eq
  intro i hi
  interval_cases i <;> simp [encodeFields]

@[simp] theorem encodeFields_s : (encodeFields cond cls op s rn rd low).getLsbD 20 = s := by
  simp [encodeFields]

@[simp] theorem encodeFields_s_getElem : (encodeFields cond cls op s rn rd low)[20] = s := by
  simp [encodeFields]

@[simp] theorem encodeFields_rn : (encodeFields cond cls op s rn rd low).extractLsb' 16 4 = rn := by
  apply BitVec.eq_of_getLsbD_eq
  intro i hi
  interval_cases i <;> simp [encodeFields]

@[simp] theorem encodeFields_rd : (encodeFields cond cls op s rn rd low).extractLsb' 12 4 = rd := by
  apply BitVec.eq_of_getLsbD_eq
  intro i hi
  interval_cases i <;> simp [encodeFields]

@[simp] theorem encodeFields_low : (encodeFields cond cls op s rn rd low).extractLsb' 0 12 = low := by
  apply BitVec.eq_of_getLsbD_eq
  intro i hi
  interval_cases i <;> simp [encodeFields]

@[simp] theorem encodeFields_rm :
    (encodeFields cond cls op s rn rd low).extractLsb' 0 4 = low.extractLsb' 0 4 := by
  apply BitVec.eq_of_getLsbD_eq
  intro i hi
  interval_cases i <;> simp [encodeFields]
end

/-- A register index that fits its field is read back. -/
theorem regField_toNat {i : Nat} (h : regOk i = true) : (regField i).toNat = i := by
  simp only [regOk, decide_eq_true_eq] at h
  simp only [regField, BitVec.toNat_ofNat]; omega

/-- The source-B index in the low 12 bits is read back. -/
theorem rmField_toNat {i : Nat} (h : regOk i = true) : ((rmField i).extractLsb' 0 4).toNat = i := by
  have e : (rmField i).extractLsb' 0 4 = regField i := by
    apply BitVec.eq_of_getLsbD_eq
    intro j hj
    simp [rmField, hj]
    omega
  rw [e, regField_toNat h]

/-- The same, as a remainder. -/
theorem rmField_mod {i : Nat} (h : regOk i = true) : (rmField i).toNat % 16 = i := by
  have := rmField_toNat h
  simpa using this

/-- Every 4-bit field is a register index that fits (R77). -/
theorem regOk_field (k : BitVec 4) : regOk k.toNat = true := by
  revert k; decide

/-- The decoded source-A index fits. -/
theorem regOk_rn (w : Word) : regOk (decodeFields w).rn = true := regOk_field _
/-- The decoded destination index fits. -/
theorem regOk_rd (w : Word) : regOk (decodeFields w).rd = true := regOk_field _
/-- The decoded source-B index fits. -/
theorem regOk_rm (w : Word) : regOk (decodeFields w).rm = true := regOk_field _

end Sys2Proof
end

