-- ==== Sys2Proof/Laws/Memory.lean ====
section
/-! SUPPORT. The program image as memory: every write keeps the canonical form, a read after a write gives what was
written, and a write leaves every other address alone. -/

namespace Sys2Proof.Machine

/-- The canonical form from a bound is the canonical form from every lower one. -/
theorem Memory.wfFrom_mono {lo lo' : Nat} (h : lo' ≤ lo) : ∀ {m : Memory}, m.wfFrom lo = true → m.wfFrom lo' = true
  | [], _ => rfl
  | (k, v) :: m, hm => by
    simp only [Memory.wfFrom, Bool.and_eq_true, decide_eq_true_eq] at hm ⊢
    exact ⟨⟨⟨by omega, hm.1.1.2⟩, hm.1.2⟩, hm.2⟩

/-- Below its first address an image reads as unlisted. -/
theorem Memory.readByte_below {a : Nat} : ∀ {lo : Nat} {m : Memory}, m.wfFrom lo = true → a < lo →
    m.readByte a = Memory.unlisted
  | _, [], _, _ => rfl
  | lo, (k, v) :: m, hm, ha => by
    simp only [Memory.wfFrom, Bool.and_eq_true, decide_eq_true_eq] at hm
    have hk : a ≠ k := by omega
    simp only [Memory.readByte, if_neg hk]
    exact Memory.readByte_below hm.2 (by omega)

/-- A cell in front keeps the canonical form. -/
theorem Memory.wfFrom_cons {lo a : Nat} {b : Byte} {m : Memory} (hlo : lo ≤ a) (ha : a < 2 ^ 32)
    (hm : m.wfFrom (a + 1) = true) : (Memory.cons a b m).wfFrom lo = true := by
  unfold Memory.cons
  split
  · exact Memory.wfFrom_mono (by omega) hm
  · simp only [Memory.wfFrom, Bool.and_eq_true, decide_eq_true_eq]
    exact ⟨⟨⟨hlo, ha⟩, by assumption⟩, hm⟩

/-- Writing a byte keeps the canonical form. -/
theorem Memory.wfFrom_writeByte {a : Nat} {b : Byte} (ha : a < 2 ^ 32) : ∀ {lo : Nat} {m : Memory}, lo ≤ a →
    m.wfFrom lo = true → (m.writeByte a b).wfFrom lo = true
  | lo, [], hlo, _ => Memory.wfFrom_cons hlo ha rfl
  | lo, (k, v) :: m, hlo, hm => by
    simp only [Memory.wfFrom, Bool.and_eq_true, decide_eq_true_eq] at hm
    simp only [Memory.writeByte]
    split_ifs with h1 h2
    · apply Memory.wfFrom_cons hlo ha
      simp only [Memory.wfFrom, Bool.and_eq_true, decide_eq_true_eq]
      exact ⟨⟨⟨by omega, hm.1.1.2⟩, hm.1.2⟩, hm.2⟩
    · subst h2; exact Memory.wfFrom_cons hlo ha hm.2
    · simp only [Memory.wfFrom, Bool.and_eq_true, decide_eq_true_eq]
      exact ⟨⟨⟨hm.1.1.1, hm.1.1.2⟩, hm.1.2⟩, Memory.wfFrom_writeByte ha (by omega) hm.2⟩

/-- A cell in front reads as itself. -/
theorem Memory.readByte_cons_same {a : Nat} {b : Byte} {m : Memory} (hm : m.wfFrom (a + 1) = true) :
    (Memory.cons a b m).readByte a = b := by
  unfold Memory.cons
  split
  · next h => rw [h]; exact Memory.readByte_below hm (by omega)
  · simp [Memory.readByte]

/-- A cell in front leaves every other address. -/
theorem Memory.readByte_cons_ne {a a' : Nat} (h : a' ≠ a) (b : Byte) (m : Memory) :
    (Memory.cons a b m).readByte a' = m.readByte a' := by
  unfold Memory.cons
  split
  · rfl
  · simp [Memory.readByte, h]

/-- A read after a write to the same address gives what was written. -/
theorem Memory.readByte_writeByte_same {a : Nat} {b : Byte} : ∀ {lo : Nat} {m : Memory}, m.wfFrom lo = true →
    (m.writeByte a b).readByte a = b
  | _, [], _ => Memory.readByte_cons_same rfl
  | lo, (k, v) :: m, hm => by
    simp only [Memory.wfFrom, Bool.and_eq_true, decide_eq_true_eq] at hm
    simp only [Memory.writeByte]
    split_ifs with h1 h2
    · apply Memory.readByte_cons_same
      simp only [Memory.wfFrom, Bool.and_eq_true, decide_eq_true_eq]
      exact ⟨⟨⟨by omega, hm.1.1.2⟩, hm.1.2⟩, hm.2⟩
    · subst h2; exact Memory.readByte_cons_same hm.2
    · simp only [Memory.readByte, if_neg h2]
      exact Memory.readByte_writeByte_same hm.2

/-- A write leaves every other address. -/
theorem Memory.readByte_writeByte_ne {a a' : Nat} (h : a' ≠ a) (b : Byte) : ∀ (m : Memory),
    (m.writeByte a b).readByte a' = m.readByte a'
  | [] => Memory.readByte_cons_ne h b []
  | (k, v) :: m => by
    simp only [Memory.writeByte]
    split_ifs with h1 h2
    · exact Memory.readByte_cons_ne h b _
    · subst h2; rw [Memory.readByte_cons_ne h]; simp [Memory.readByte, h]
    · simp only [Memory.readByte]
      split
      · rfl
      · exact Memory.readByte_writeByte_ne h b m

/-- Writing a byte at a 32-bit address keeps the canonical form. -/
theorem Memory.wf_write {m : Memory} (h : m.wf = true) (a : Word) (b : Byte) : (m.write a b).wf = true :=
  Memory.wfFrom_writeByte a.isLt (Nat.zero_le _) h

/-- A read after a write to the same 32-bit address. -/
theorem Memory.read_write_same {m : Memory} (h : m.wf = true) (a : Word) (b : Byte) : (m.write a b).read a = b :=
  Memory.readByte_writeByte_same h

/-- A write to one 32-bit address leaves every other. -/
theorem Memory.read_write_ne (m : Memory) {a a' : Word} (h : a' ≠ a) (b : Byte) :
    (m.write a b).read a' = m.read a' :=
  Memory.readByte_writeByte_ne (fun e => h (BitVec.eq_of_toNat_eq e)) b m

/-- Writing bytes keeps the canonical form. -/
theorem Memory.wf_writeBytes : ∀ (bs : List Byte) {m : Memory} (a : Word), m.wf = true →
    (m.writeBytes a bs).wf = true
  | [], _, _, h => h
  | b :: bs, _, a, h => Memory.wf_writeBytes bs (a + 1) (Memory.wf_write h a b)

/-- Writing a word keeps the canonical form. -/
theorem Memory.wf_writeWord {m : Memory} (h : m.wf = true) (a w : Word) : (m.writeWord a w).wf = true :=
  Memory.wf_write (Memory.wf_write (Memory.wf_write (Memory.wf_write h _ _) _ _) _ _) _ _

/-- The four addresses of a word are four addresses, wherever it stands. -/
theorem word_addresses_ne (a : Word) : a ≠ a + 1 ∧ a ≠ a + 2 ∧ a ≠ a + 3 ∧ a + 1 ≠ a + 2 ∧ a + 1 ≠ a + 3 ∧
    a + 2 ≠ a + 3 := by
  refine ⟨?_, ?_, ?_, ?_, ?_, ?_⟩ <;> bv_omega

/-- A word read after the word was written to the same address is that word (R53). -/
theorem Memory.readWord_writeWord {m : Memory} (h : m.wf = true) (a w : Word) :
    (m.writeWord a w).readWord a = w := by
  obtain ⟨h01, h02, h03, h12, h13, h23⟩ := word_addresses_ne a
  have w1 := Memory.wf_write h a (byteOfWord params.imageEndian w 0)
  have w2 := Memory.wf_write w1 (a + 1) (byteOfWord params.imageEndian w 1)
  have w3 := Memory.wf_write w2 (a + 2) (byteOfWord params.imageEndian w 2)
  unfold Memory.readWord Memory.writeWord
  rw [Memory.read_write_same w3, Memory.read_write_ne _ h23, Memory.read_write_same w2, Memory.read_write_ne _ h13,
    Memory.read_write_ne _ h12, Memory.read_write_same w1, Memory.read_write_ne _ h03, Memory.read_write_ne _ h02,
    Memory.read_write_ne _ h01, Memory.read_write_same h, wordOfBytes_byteOfWord]

/-- Writing a word leaves every address but its four. -/
theorem Memory.read_writeWord_ne (m : Memory) {a a' : Word} (w : Word) (h0 : a' ≠ a) (h1 : a' ≠ a + 1)
    (h2 : a' ≠ a + 2) (h3 : a' ≠ a + 3) : (m.writeWord a w).read a' = m.read a' := by
  unfold Memory.writeWord
  rw [Memory.read_write_ne _ h3, Memory.read_write_ne _ h2, Memory.read_write_ne _ h1, Memory.read_write_ne _ h0]

end Sys2Proof.Machine
end

