-- ==== Sys2Proof/Laws/State.lean ====
section
/-! SUPPORT. One lemma per field per update of the state, so that no proof unfolds a record update. -/

namespace Sys2Proof.Machine
variable (s : State)

/-! ## setPc -/
@[simp] theorem State.setPc_r (v : Word) : (s.setPc v).r = s.r := rfl
@[simp] theorem State.setPc_sp (v : Word) : (s.setPc v).sp = s.sp := rfl
@[simp] theorem State.setPc_lr (v : Word) : (s.setPc v).lr = s.lr := rfl
@[simp] theorem State.setPc_pc (v : Word) : (s.setPc v).pc = align4 v := rfl
@[simp] theorem State.setPc_psr (v : Word) : (s.setPc v).psr = s.psr := rfl
@[simp] theorem State.setPc_sys (v : Word) : (s.setPc v).sys = s.sys := rfl
@[simp] theorem State.setPc_imem (v : Word) : (s.setPc v).imem = s.imem := rfl

/-! ## setPsr -/
@[simp] theorem State.setPsr_r (p : Psr) : (s.setPsr p).r = s.r := rfl
@[simp] theorem State.setPsr_sp (p : Psr) : (s.setPsr p).sp = s.sp := rfl
@[simp] theorem State.setPsr_lr (p : Psr) : (s.setPsr p).lr = s.lr := rfl
@[simp] theorem State.setPsr_pc (p : Psr) : (s.setPsr p).pc = s.pc := rfl
@[simp] theorem State.setPsr_psr (p : Psr) : (s.setPsr p).psr = p := rfl
@[simp] theorem State.setPsr_sys (p : Psr) : (s.setPsr p).sys = s.sys := rfl
@[simp] theorem State.setPsr_imem (p : Psr) : (s.setPsr p).imem = s.imem := rfl

/-! ## setSys -/
@[simp] theorem State.setSys_r (y : SysRegs) : (s.setSys y).r = s.r := rfl
@[simp] theorem State.setSys_sp (y : SysRegs) : (s.setSys y).sp = s.sp := rfl
@[simp] theorem State.setSys_lr (y : SysRegs) : (s.setSys y).lr = s.lr := rfl
@[simp] theorem State.setSys_pc (y : SysRegs) : (s.setSys y).pc = s.pc := rfl
@[simp] theorem State.setSys_psr (y : SysRegs) : (s.setSys y).psr = s.psr := rfl
@[simp] theorem State.setSys_sys (y : SysRegs) : (s.setSys y).sys = y := rfl
@[simp] theorem State.setSys_imem (y : SysRegs) : (s.setSys y).imem = s.imem := rfl

/-! ## setImem -/
@[simp] theorem State.setImem_r (m : Memory) : (s.setImem m).r = s.r := rfl
@[simp] theorem State.setImem_sp (m : Memory) : (s.setImem m).sp = s.sp := rfl
@[simp] theorem State.setImem_lr (m : Memory) : (s.setImem m).lr = s.lr := rfl
@[simp] theorem State.setImem_pc (m : Memory) : (s.setImem m).pc = s.pc := rfl
@[simp] theorem State.setImem_psr (m : Memory) : (s.setImem m).psr = s.psr := rfl
@[simp] theorem State.setImem_sys (m : Memory) : (s.setImem m).sys = s.sys := rfl
@[simp] theorem State.setImem_imem (m : Memory) : (s.setImem m).imem = m := rfl

/-! ## advance -/
@[simp] theorem State.advance_r : s.advance.r = s.r := rfl
@[simp] theorem State.advance_sp : s.advance.sp = s.sp := rfl
@[simp] theorem State.advance_lr : s.advance.lr = s.lr := rfl
@[simp] theorem State.advance_pc : s.advance.pc = align4 (s.pc + 4) := rfl
@[simp] theorem State.advance_psr : s.advance.psr = s.psr := rfl
@[simp] theorem State.advance_sys : s.advance.sys = s.sys := rfl
@[simp] theorem State.advance_imem : s.advance.imem = s.imem := rfl

/-! ## enterException -/
@[simp] theorem State.enterException_r (off : Word) : (s.enterException off).r = s.r := rfl
@[simp] theorem State.enterException_sp (off : Word) : (s.enterException off).sp = s.sp := rfl
@[simp] theorem State.enterException_lr (off : Word) : (s.enterException off).lr = s.lr := rfl
@[simp] theorem State.enterException_pc (off : Word) :
    (s.enterException off).pc = align4 (align1K s.sys.vbar + off) := rfl
@[simp] theorem State.enterException_psr (off : Word) :
    (s.enterException off).psr = { s.psr with p := true } := rfl
@[simp] theorem State.enterException_sys (off : Word) :
    (s.enterException off).sys = { s.sys with elr := s.pc, spsr := encodePsr s.psr } := rfl
@[simp] theorem State.enterException_imem (off : Word) : (s.enterException off).imem = s.imem := rfl

/-! ## returnFromException -/
@[simp] theorem State.returnFromException_r : s.returnFromException.r = s.r := rfl
@[simp] theorem State.returnFromException_sp : s.returnFromException.sp = s.sp := rfl
@[simp] theorem State.returnFromException_lr : s.returnFromException.lr = s.lr := rfl
@[simp] theorem State.returnFromException_pc : s.returnFromException.pc = align4 s.sys.elr := rfl
@[simp] theorem State.returnFromException_psr : s.returnFromException.psr = decodePsr s.sys.spsr := rfl
@[simp] theorem State.returnFromException_sys : s.returnFromException.sys = s.sys := rfl
@[simp] theorem State.returnFromException_imem : s.returnFromException.imem = s.imem := rfl

/-! ## writeReg -/
@[simp] theorem State.writeReg_psr (i : Nat) (v : Word) : (s.writeReg i v).psr = s.psr := by
  unfold State.writeReg; split_ifs <;> rfl
@[simp] theorem State.writeReg_sys (i : Nat) (v : Word) : (s.writeReg i v).sys = s.sys := by
  unfold State.writeReg; split_ifs <;> rfl
@[simp] theorem State.writeReg_imem (i : Nat) (v : Word) : (s.writeReg i v).imem = s.imem := by
  unfold State.writeReg; split_ifs <;> rfl
theorem State.writeReg_pc (i : Nat) (v : Word) : (s.writeReg i v).pc = if i = 15 then align4 v else s.pc := by
  unfold State.writeReg
  split_ifs <;> first | rfl | omega

/-! ## readReg -/
@[simp] theorem State.readReg_pc : s.readReg 15 = s.pc := by simp [State.readReg]
@[simp] theorem State.readReg_lr : s.readReg 14 = s.lr := by simp [State.readReg]
@[simp] theorem State.readReg_sp : s.readReg 13 = s.sp := by simp [State.readReg]
/-- An index outside 0 to 15 reads zero (R23). -/
theorem State.readReg_invalid {i : Nat} (h : 16 ≤ i) : s.readReg i = 0 := by
  unfold State.readReg; split_ifs <;> first | rfl | omega
/-- An index outside 0 to 15 writes nothing (R24). -/
theorem State.writeReg_invalid {i : Nat} (h : 16 ≤ i) (v : Word) : s.writeReg i v = s := by
  unfold State.writeReg; split_ifs <;> first | rfl | omega
@[simp] theorem State.readReg_setPsr (p : Psr) (i : Nat) : (s.setPsr p).readReg i = s.readReg i := rfl
@[simp] theorem State.readReg_setSys (y : SysRegs) (i : Nat) : (s.setSys y).readReg i = s.readReg i := rfl
@[simp] theorem State.readReg_setImem (m : Memory) (i : Nat) : (s.setImem m).readReg i = s.readReg i := rfl
/-- Writing the program counter leaves every other index. -/
theorem State.readReg_setPc {i : Nat} (h : i ≠ 15) (v : Word) : (s.setPc v).readReg i = s.readReg i := by
  unfold State.readReg; split_ifs <;> rfl
theorem State.readReg_advance {i : Nat} (h : i ≠ 15) : s.advance.readReg i = s.readReg i := s.readReg_setPc h _
theorem State.readReg_enterException {i : Nat} (h : i ≠ 15) (off : Word) :
    (s.enterException off).readReg i = s.readReg i := by
  unfold State.readReg; split_ifs <;> rfl
theorem State.readReg_returnFromException {i : Nat} (h : i ≠ 15) : s.returnFromException.readReg i = s.readReg i := by
  unfold State.readReg; split_ifs <;> rfl
/-- A register reads what was written to it. -/
theorem State.readReg_writeReg_same {i : Nat} (h : i < 15) (v : Word) : (s.writeReg i v).readReg i = v := by
  unfold State.writeReg State.readReg
  split_ifs <;> first | rfl | omega | simp
/-- Index 15 reads what was written to it, aligned (R26). -/
@[simp] theorem State.readReg_writeReg_pc (v : Word) : (s.writeReg 15 v).readReg 15 = align4 v := by
  simp [State.writeReg_pc]
/-- A write to one index leaves every other index. -/
theorem State.readReg_writeReg_ne {i j : Nat} (h : i ≠ j) (v : Word) : (s.writeReg i v).readReg j = s.readReg j := by
  unfold State.writeReg State.readReg
  split_ifs <;> first | rfl | omega | (simp [Vector.getElem_set]; omega)

/-- Two states with the same fields are the same. -/
theorem State.ext_fields {s t : State} (hr : t.r = s.r) (hsp : t.sp = s.sp) (hlr : t.lr = s.lr) (hpc : t.pc = s.pc)
    (hpsr : t.psr = s.psr) (hsys : t.sys = s.sys) (hm : t.imem = s.imem) : t = s := by
  cases s; cases t; simp_all

end Sys2Proof.Machine
end

