-- ==== Sys2Proof/Laws/Ops.lean ====
section
/-! SUPPORT. For each shared operation of Machine/Ops.lean and Machine/Flags.lean, what it can do, said once. -/

namespace Sys2Proof.Machine

/-! ## The condition guard -/

/-- A passing condition runs the unit (R100). -/
theorem guarded_pass {c : Cond} {s : State} (h : s.psr.passes c = true) (unit : Result) :
    guarded c s unit = unit := by simp [guarded, h]

/-- A failing condition only advances (R103). -/
theorem guarded_fail {c : Cond} {s : State} (h : s.psr.passes c = false) (unit : Result) :
    guarded c s unit = .next s.advance := by simp [guarded, h]

/-- A guarded unit answers a next state in one of two ways. -/
theorem guarded_next {c : Cond} {s t : State} {unit : Result} (h : guarded c s unit = .next t) :
    (s.psr.passes c = true ∧ unit = .next t) ∨ (s.psr.passes c = false ∧ t = s.advance) := by
  cases hp : s.psr.passes c with
  | true => exact .inl ⟨rfl, by rwa [guarded_pass hp] at h⟩
  | false =>
    rw [guarded_fail hp] at h
    injection h with h
    exact .inr ⟨rfl, h.symm⟩

/-! ## Advancing -/

/-- From an aligned `pc` the machine advances by exactly 4 (R27). -/
theorem State.advance_pc_aligned {s : State} (h : s.pc.toNat % 4 = 0) : s.advance.pc = s.pc + 4 :=
  align4_add_four h

/-- From an aligned `pc`, advancing is one record update. -/
theorem State.advance_eq {s : State} (h : s.pc.toNat % 4 = 0) : s.advance = { s with pc := s.pc + 4 } := by
  unfold State.advance State.setPc
  rw [align4_add_four h]

/-! ## Finishing a data instruction -/

/-- Under the chosen policy a data instruction always answers this next state (R134, `supersede`). -/
theorem writeResult_chosen (rd : Nat) (v : Word) (p : Psr) (s : State) :
    writeResult params.r15DestPolicy rd v p s = .next (((s.writeReg rd v).setPsr p).setPc (s.pc + 4)) := rfl

/-- Everything a data instruction can do, under any policy (R120, R134). -/
theorem writeResult_next {policy : R15DestPolicy} {rd : Nat} {v : Word} {p : Psr} {s t : State}
    (h : writeResult policy rd v p s = .next t) :
    t.psr = p ∧ t.sys = s.sys ∧ t.imem = s.imem ∧ (rd < 15 → t.readReg rd = v) ∧
      (∀ i, i ≠ 15 → i ≠ rd → t.readReg i = s.readReg i) ∧
      t.pc = (if rd = 15 ∧ policy = .writeThenAdvance then align4 (align4 v + 4) else align4 (s.pc + 4)) ∧
      ¬ (rd = 15 ∧ policy = .refuse) := by
  have key : ∀ q : Word, t = ((s.writeReg rd v).setPsr p).setPc q →
      t.psr = p ∧ t.sys = s.sys ∧ t.imem = s.imem ∧ (rd < 15 → t.readReg rd = v) ∧
      (∀ i, i ≠ 15 → i ≠ rd → t.readReg i = s.readReg i) ∧ t.pc = align4 q := by
    rintro q rfl
    refine ⟨rfl, by simp, by simp, fun hr => ?_, fun i hi hne => ?_, rfl⟩
    · rw [State.readReg_setPc _ (by omega), State.readReg_setPsr, State.readReg_writeReg_same _ hr]
    · rw [State.readReg_setPc _ hi, State.readReg_setPsr, State.readReg_writeReg_ne _ (Ne.symm hne)]
  cases policy with
  | supersede =>
    simp only [writeResult, Host.Outcome.next.injEq] at h
    simpa using key _ h.symm
  | writeThenAdvance =>
    simp only [writeResult, Host.Outcome.next.injEq] at h
    obtain ⟨h1, h2, h3, h4, h5, h6⟩ := key _ h.symm
    refine ⟨h1, h2, h3, h4, h5, ?_, by simp⟩
    rw [h6, State.setPsr_pc, State.writeReg_pc]
    by_cases hr : rd = 15 <;> simp [hr]
  | refuse =>
    simp only [writeResult] at h
    split at h
    · cases h
    · next hr =>
      simp only [Host.Outcome.next.injEq] at h
      simpa [hr] using key _ h.symm

/-! ## Taking an exception and returning from one -/

/-- Taking an exception, as one record update (R201, R206). -/
theorem State.enterException_eq (s : State) (off : Word) : s.enterException off =
    { s with pc := align4 (align1K s.sys.vbar + off), psr := { s.psr with p := true },
             sys := { s.sys with elr := s.pc, spsr := encodePsr s.psr } } := rfl

/-- Returning from an exception, as one record update (R207, R208). -/
theorem State.returnFromException_eq (s : State) : s.returnFromException =
    { s with pc := align4 s.sys.elr, psr := decodePsr s.sys.spsr } := rfl

/-! ## Flags -/

@[simp] theorem Psr.withNZ_n (p : Psr) (r : Word) : (p.withNZ r).n = r.msb := rfl
@[simp] theorem Psr.withNZ_z (p : Psr) (r : Word) : (p.withNZ r).z = decide (r = 0) := rfl
@[simp] theorem Psr.withNZ_c (p : Psr) (r : Word) : (p.withNZ r).c = p.c := rfl
@[simp] theorem Psr.withNZ_v (p : Psr) (r : Word) : (p.withNZ r).v = p.v := rfl
@[simp] theorem Psr.withNZ_i (p : Psr) (r : Word) : (p.withNZ r).i = p.i := rfl
@[simp] theorem Psr.withNZ_f (p : Psr) (r : Word) : (p.withNZ r).f = p.f := rfl
@[simp] theorem Psr.withNZ_p (p : Psr) (r : Word) : (p.withNZ r).p = p.p := rfl

/-- ADD's flags as one record update (R124). -/
theorem Psr.addFlags_eq (p : Psr) (a b : Word) : p.addFlags a b =
    { p with n := (a + b).msb, z := decide (a + b = 0), c := addCarry a b, v := addOverflow a b } := rfl
/-- SUB's and CMP's flags as one record update (R125, R132). -/
theorem Psr.subFlags_eq (p : Psr) (a b : Word) : p.subFlags a b =
    { p with n := (a - b).msb, z := decide (a - b = 0), c := subCarry a b, v := subOverflow a b } := rfl
/-- The logical operations' flags as one record update (R126). -/
theorem Psr.logicFlags_eq (p : Psr) (r : Word) : p.logicFlags r =
    { p with n := r.msb, z := decide (r = 0), c := false, v := false } := rfl
/-- TST's flags as one record update (R131). -/
theorem Psr.testFlags_eq (p : Psr) (r : Word) : p.testFlags r = { p with n := r.msb, z := decide (r = 0) } := rfl

@[simp] theorem flagsIf_true (new old : Psr) : flagsIf true new old = new := rfl
@[simp] theorem flagsIf_false (new old : Psr) : flagsIf false new old = old := rfl

/-! ### The fields of each flag update -/
@[simp] theorem Psr.addFlags_i (p : Psr) (a b : Word) : (p.addFlags a b).i = p.i := rfl
@[simp] theorem Psr.addFlags_f (p : Psr) (a b : Word) : (p.addFlags a b).f = p.f := rfl
@[simp] theorem Psr.addFlags_p (p : Psr) (a b : Word) : (p.addFlags a b).p = p.p := rfl
@[simp] theorem Psr.subFlags_i (p : Psr) (a b : Word) : (p.subFlags a b).i = p.i := rfl
@[simp] theorem Psr.subFlags_f (p : Psr) (a b : Word) : (p.subFlags a b).f = p.f := rfl
@[simp] theorem Psr.subFlags_p (p : Psr) (a b : Word) : (p.subFlags a b).p = p.p := rfl
@[simp] theorem Psr.logicFlags_i (p : Psr) (r : Word) : (p.logicFlags r).i = p.i := rfl
@[simp] theorem Psr.logicFlags_f (p : Psr) (r : Word) : (p.logicFlags r).f = p.f := rfl
@[simp] theorem Psr.logicFlags_p (p : Psr) (r : Word) : (p.logicFlags r).p = p.p := rfl
@[simp] theorem Psr.testFlags_i (p : Psr) (r : Word) : (p.testFlags r).i = p.i := rfl
@[simp] theorem Psr.testFlags_f (p : Psr) (r : Word) : (p.testFlags r).f = p.f := rfl
@[simp] theorem Psr.testFlags_p (p : Psr) (r : Word) : (p.testFlags r).p = p.p := rfl
@[simp] theorem Psr.logicFlags_c (p : Psr) (r : Word) : (p.logicFlags r).c = false := rfl
@[simp] theorem Psr.testFlags_c (p : Psr) (r : Word) : (p.testFlags r).c = p.c := rfl
@[simp] theorem Psr.logicFlags_v (p : Psr) (r : Word) : (p.logicFlags r).v = false := rfl
@[simp] theorem Psr.testFlags_v (p : Psr) (r : Word) : (p.testFlags r).v = p.v := rfl
@[simp] theorem Psr.addFlags_c (p : Psr) (a b : Word) : (p.addFlags a b).c = addCarry a b := rfl
@[simp] theorem Psr.addFlags_v (p : Psr) (a b : Word) : (p.addFlags a b).v = addOverflow a b := rfl
@[simp] theorem Psr.subFlags_c (p : Psr) (a b : Word) : (p.subFlags a b).c = subCarry a b := rfl
@[simp] theorem Psr.subFlags_v (p : Psr) (a b : Word) : (p.subFlags a b).v = subOverflow a b := rfl
@[simp] theorem Psr.addFlags_n (p : Psr) (a b : Word) : (p.addFlags a b).n = (a + b).msb := rfl
@[simp] theorem Psr.addFlags_z (p : Psr) (a b : Word) : (p.addFlags a b).z = decide (a + b = 0) := rfl
@[simp] theorem Psr.subFlags_n (p : Psr) (a b : Word) : (p.subFlags a b).n = (a - b).msb := rfl
@[simp] theorem Psr.subFlags_z (p : Psr) (a b : Word) : (p.subFlags a b).z = decide (a - b = 0) := rfl
@[simp] theorem Psr.logicFlags_n (p : Psr) (r : Word) : (p.logicFlags r).n = r.msb := rfl
@[simp] theorem Psr.logicFlags_z (p : Psr) (r : Word) : (p.logicFlags r).z = decide (r = 0) := rfl
@[simp] theorem Psr.testFlags_n (p : Psr) (r : Word) : (p.testFlags r).n = r.msb := rfl
@[simp] theorem Psr.testFlags_z (p : Psr) (r : Word) : (p.testFlags r).z = decide (r = 0) := rfl
@[simp] theorem flagsIf_n (b : Bool) (new old : Psr) : (flagsIf b new old).n = if b = true then new.n else old.n := by
  cases b <;> rfl
@[simp] theorem flagsIf_z (b : Bool) (new old : Psr) : (flagsIf b new old).z = if b = true then new.z else old.z := by
  cases b <;> rfl
@[simp] theorem flagsIf_c (b : Bool) (new old : Psr) : (flagsIf b new old).c = if b = true then new.c else old.c := by
  cases b <;> rfl
@[simp] theorem flagsIf_v (b : Bool) (new old : Psr) : (flagsIf b new old).v = if b = true then new.v else old.v := by
  cases b <;> rfl
@[simp] theorem flagsIf_i (b : Bool) (new old : Psr) : (flagsIf b new old).i = if b = true then new.i else old.i := by
  cases b <;> rfl
@[simp] theorem flagsIf_f (b : Bool) (new old : Psr) : (flagsIf b new old).f = if b = true then new.f else old.f := by
  cases b <;> rfl
@[simp] theorem flagsIf_p (b : Bool) (new old : Psr) : (flagsIf b new old).p = if b = true then new.p else old.p := by
  cases b <;> rfl

end Sys2Proof.Machine
end

