-- ==== Sys2Proof/Laws/Exec.lean ====
section
/-! SUPPORT. What `exec` can do, said once: under the chosen parameters it always answers the state below. Proofs about
a step cite `exec_eq` and split on the condition, then on the instruction. -/

namespace Sys2Proof.Machine

/-- A data instruction's next state: the result and the status word written, `pc` advanced from `pc0` (R134). -/
def dataEffect (rd : Nat) (v : Word) (p : Psr) (s : State) : State := ((s.writeReg rd v).setPsr p).setPc (s.pc + 4)

/-- The next state of an instruction whose condition passed. -/
def effect (i : Instr) (s : State) : State :=
  match i with
  | .add _ f rd rn imm => dataEffect rd (s.readReg rn + zext32 imm)
      (flagsIf f (s.psr.addFlags (s.readReg rn) (zext32 imm)) s.psr) s
  | .sub _ f rd rn imm => dataEffect rd (s.readReg rn - zext32 imm)
      (flagsIf f (s.psr.subFlags (s.readReg rn) (zext32 imm)) s.psr) s
  | .and _ f rd rn rm => dataEffect rd (s.readReg rn &&& s.readReg rm)
      (flagsIf f (s.psr.logicFlags (s.readReg rn &&& s.readReg rm)) s.psr) s
  | .orr _ f rd rn rm => dataEffect rd (s.readReg rn ||| s.readReg rm)
      (flagsIf f (s.psr.logicFlags (s.readReg rn ||| s.readReg rm)) s.psr) s
  | .eor _ f rd rn rm => dataEffect rd (s.readReg rn ^^^ s.readReg rm)
      (flagsIf f (s.psr.logicFlags (s.readReg rn ^^^ s.readReg rm)) s.psr) s
  | .mov _ f rd imm => dataEffect rd (zext32 imm) (flagsIf f (s.psr.logicFlags (zext32 imm)) s.psr) s
  | .mvn _ f rd rm => dataEffect rd (~~~ s.readReg rm) (flagsIf f (s.psr.logicFlags (~~~ s.readReg rm)) s.psr) s
  | .tst _ rn rm => (s.setPsr (s.psr.testFlags (s.readReg rn &&& s.readReg rm))).advance
  | .cmp _ rn rm => (s.setPsr (s.psr.subFlags (s.readReg rn) (s.readReg rm))).advance
  | .b _ imm => s.setPc (branchTarget s.pc imm)
  | .bl _ imm => (s.writeReg 14 (s.pc + 4)).setPc (branchTarget s.pc imm)
  | .mrs _ rd => dataEffect rd (encodePsr s.psr) s.psr s
  | .msr _ rn => (s.setPsr (decodePsr (s.readReg rn))).advance
  | .svc _ => s.enterException svcOffset
  | .eret _ => s.returnFromException
  | _ => s.advance

/-- `exec` answers the effect when the condition passes and only advances when it fails (R100, R103). -/
theorem exec_eq (i : Instr) (s : State) :
    exec i s = .next (if s.psr.passes i.cond = true then effect i s else s.advance) := by
  have key : ∀ (c : Cond) (u : State),
      guarded c s (.next u) = .next (if s.psr.passes c = true then u else s.advance) := by
    intro c u; unfold guarded; split <;> rfl
  cases i <;> exact key _ _

/-- A passing condition. -/
theorem exec_pass {i : Instr} {s : State} (h : s.psr.passes i.cond = true) : exec i s = .next (effect i s) := by
  rw [exec_eq, if_pos h]

/-- A failing condition. -/
theorem exec_fail {i : Instr} {s : State} (h : s.psr.passes i.cond = false) : exec i s = .next s.advance := by
  rw [exec_eq, h]; rfl

/-- A next state of `exec` is one of the two. -/
theorem exec_next {i : Instr} {s t : State} (h : exec i s = .next t) :
    (s.psr.passes i.cond = true ∧ t = effect i s) ∨ (s.psr.passes i.cond = false ∧ t = s.advance) := by
  cases hp : s.psr.passes i.cond with
  | true => rw [exec_pass hp] at h; exact .inl ⟨rfl, (Host.Outcome.next.inj h).symm⟩
  | false => rw [exec_fail hp] at h; exact .inr ⟨rfl, (Host.Outcome.next.inj h).symm⟩

/-- A step is `exec` of the instruction of the fetched word (R50, R100). -/
theorem step_eq (s : State) : step s = exec (decode s.fetchWord) s := rfl

section
variable (rd : Nat) (v : Word) (p : Psr) (s : State)
@[simp] theorem dataEffect_psr : (dataEffect rd v p s).psr = p := by simp [dataEffect]
@[simp] theorem dataEffect_sys : (dataEffect rd v p s).sys = s.sys := by simp [dataEffect]
@[simp] theorem dataEffect_imem : (dataEffect rd v p s).imem = s.imem := by simp [dataEffect]
@[simp] theorem dataEffect_pc : (dataEffect rd v p s).pc = align4 (s.pc + 4) := by simp [dataEffect]
/-- The destination of a data instruction, unless it is index 15. -/
theorem dataEffect_readReg_same (h : rd < 15) : (dataEffect rd v p s).readReg rd = v := by
  unfold dataEffect
  rw [State.readReg_setPc _ (by omega), State.readReg_setPsr, State.readReg_writeReg_same _ h]
/-- Every other register of a data instruction. -/
theorem dataEffect_readReg_ne {n : Nat} (h15 : n ≠ 15) (h : n ≠ rd) :
    (dataEffect rd v p s).readReg n = s.readReg n := by
  unfold dataEffect
  rw [State.readReg_setPc _ h15, State.readReg_setPsr, State.readReg_writeReg_ne _ (Ne.symm h)]
end

end Sys2Proof.Machine
end

