-- ==== Sys2Proof/Laws/PerInstr.lean ====
section
/-! SUPPORT. Per-instruction families: one lemma per constructor of Instr. `EncodedFields`: the word of a well-formed
instruction carries its condition in bits 31 to 28 and its destination, where it names one, in bits 15 to 12 (R70,
R84). -/

namespace Sys2Proof.Laws

/-- The word of a well-formed instruction carries its condition and its destination (R70, R84). -/
def EncodedFields.Statement (i : Instr) : Prop :=
  WellFormed i → (decodeFields (encode i)).cond = i.cond ∧
    ∀ rd, i.destination = some rd → (decodeFields (encode i)).rd = rd

/-- Where the fields of R84 hold the condition and a register index, both are read back. -/
theorem encodedFields_of_destination {c : Cond} {cls : BitVec 3} {op : BitVec 4} {f : Bool} {rn : BitVec 4} {rd : Nat}
    {low : BitVec 12} (h : regOk rd = true) :
    (decodeFields (encodeFields c.code cls op f rn (regField rd) low)).cond = c ∧
      ∀ x, some rd = some x → (decodeFields (encodeFields c.code cls op f rn (regField rd) low)).rd = x := by
  refine ⟨by simp [decodeFields], fun x hx => ?_⟩
  obtain rfl := Option.some.inj hx
  simp [decodeFields, regField_toNat h]

/-- Where no destination is named, the condition is read back. -/
theorem encodedFields_of_condition {c : Cond} {cls : BitVec 3} {op : BitVec 4} {f : Bool} {rn rd : BitVec 4}
    {low : BitVec 12} :
    (decodeFields (encodeFields c.code cls op f rn rd low)).cond = c ∧
      ∀ x, (none : Option Nat) = some x → (decodeFields (encodeFields c.code cls op f rn rd low)).rd = x :=
  ⟨by simp [decodeFields], fun _ hx => nomatch hx⟩

theorem EncodedFields.add (c : Cond) (f : Bool) (rd : Nat) (rn : Nat) (imm : BitVec 12) : EncodedFields.Statement (.add c f rd rn imm) := by
  intro h
  simp only [WellFormed, Instr.wellFormed, Bool.and_eq_true] at h
  exact encodedFields_of_destination h.1
theorem EncodedFields.sub (c : Cond) (f : Bool) (rd : Nat) (rn : Nat) (imm : BitVec 12) : EncodedFields.Statement (.sub c f rd rn imm) := by
  intro h
  simp only [WellFormed, Instr.wellFormed, Bool.and_eq_true] at h
  exact encodedFields_of_destination h.1
theorem EncodedFields.and (c : Cond) (f : Bool) (rd : Nat) (rn : Nat) (rm : Nat) : EncodedFields.Statement (.and c f rd rn rm) := by
  intro h
  simp only [WellFormed, Instr.wellFormed, Bool.and_eq_true] at h
  exact encodedFields_of_destination h.1.1
theorem EncodedFields.orr (c : Cond) (f : Bool) (rd : Nat) (rn : Nat) (rm : Nat) : EncodedFields.Statement (.orr c f rd rn rm) := by
  intro h
  simp only [WellFormed, Instr.wellFormed, Bool.and_eq_true] at h
  exact encodedFields_of_destination h.1.1
theorem EncodedFields.eor (c : Cond) (f : Bool) (rd : Nat) (rn : Nat) (rm : Nat) : EncodedFields.Statement (.eor c f rd rn rm) := by
  intro h
  simp only [WellFormed, Instr.wellFormed, Bool.and_eq_true] at h
  exact encodedFields_of_destination h.1.1
theorem EncodedFields.mov (c : Cond) (f : Bool) (rd : Nat) (imm : BitVec 12) : EncodedFields.Statement (.mov c f rd imm) :=
  fun h => encodedFields_of_destination h
theorem EncodedFields.mvn (c : Cond) (f : Bool) (rd : Nat) (rm : Nat) : EncodedFields.Statement (.mvn c f rd rm) := by
  intro h
  simp only [WellFormed, Instr.wellFormed, Bool.and_eq_true] at h
  exact encodedFields_of_destination h.1
theorem EncodedFields.tst (c : Cond) (rn : Nat) (rm : Nat) : EncodedFields.Statement (.tst c rn rm) :=
  fun _ => encodedFields_of_condition
theorem EncodedFields.cmp (c : Cond) (rn : Nat) (rm : Nat) : EncodedFields.Statement (.cmp c rn rm) :=
  fun _ => encodedFields_of_condition
theorem EncodedFields.aluUndef9 (c : Cond) : EncodedFields.Statement (.aluUndef9 c) :=
  fun _ => encodedFields_of_condition
theorem EncodedFields.aluUndefA (c : Cond) : EncodedFields.Statement (.aluUndefA c) :=
  fun _ => encodedFields_of_condition
theorem EncodedFields.aluUndefB (c : Cond) : EncodedFields.Statement (.aluUndefB c) :=
  fun _ => encodedFields_of_condition
theorem EncodedFields.aluUndefC (c : Cond) : EncodedFields.Statement (.aluUndefC c) :=
  fun _ => encodedFields_of_condition
theorem EncodedFields.aluUndefD (c : Cond) : EncodedFields.Statement (.aluUndefD c) :=
  fun _ => encodedFields_of_condition
theorem EncodedFields.aluUndefE (c : Cond) : EncodedFields.Statement (.aluUndefE c) :=
  fun _ => encodedFields_of_condition
theorem EncodedFields.aluUndefF (c : Cond) : EncodedFields.Statement (.aluUndefF c) :=
  fun _ => encodedFields_of_condition
theorem EncodedFields.muldiv (c : Cond) : EncodedFields.Statement (.muldiv c) :=
  fun _ => encodedFields_of_condition
theorem EncodedFields.ldst (c : Cond) : EncodedFields.Statement (.ldst c) :=
  fun _ => encodedFields_of_condition
theorem EncodedFields.b (c : Cond) (imm : BitVec 12) : EncodedFields.Statement (.b c imm) :=
  fun _ => encodedFields_of_condition
theorem EncodedFields.bl (c : Cond) (imm : BitVec 12) : EncodedFields.Statement (.bl c imm) :=
  fun _ => encodedFields_of_condition
theorem EncodedFields.mrs (c : Cond) (rd : Nat) : EncodedFields.Statement (.mrs c rd) :=
  fun h => encodedFields_of_destination h
theorem EncodedFields.msr (c : Cond) (rn : Nat) : EncodedFields.Statement (.msr c rn) :=
  fun _ => encodedFields_of_condition
theorem EncodedFields.svc (c : Cond) : EncodedFields.Statement (.svc c) :=
  fun _ => encodedFields_of_condition
theorem EncodedFields.eret (c : Cond) : EncodedFields.Statement (.eret c) :=
  fun _ => encodedFields_of_condition
theorem EncodedFields.sysNop4 (c : Cond) : EncodedFields.Statement (.sysNop4 c) :=
  fun _ => encodedFields_of_condition
theorem EncodedFields.sysNop5 (c : Cond) : EncodedFields.Statement (.sysNop5 c) :=
  fun _ => encodedFields_of_condition
theorem EncodedFields.sysNop6 (c : Cond) : EncodedFields.Statement (.sysNop6 c) :=
  fun _ => encodedFields_of_condition
theorem EncodedFields.sysNop7 (c : Cond) : EncodedFields.Statement (.sysNop7 c) :=
  fun _ => encodedFields_of_condition
theorem EncodedFields.sysNop8 (c : Cond) : EncodedFields.Statement (.sysNop8 c) :=
  fun _ => encodedFields_of_condition
theorem EncodedFields.sysNop9 (c : Cond) : EncodedFields.Statement (.sysNop9 c) :=
  fun _ => encodedFields_of_condition
theorem EncodedFields.sysNopA (c : Cond) : EncodedFields.Statement (.sysNopA c) :=
  fun _ => encodedFields_of_condition
theorem EncodedFields.sysNopB (c : Cond) : EncodedFields.Statement (.sysNopB c) :=
  fun _ => encodedFields_of_condition
theorem EncodedFields.sysNopC (c : Cond) : EncodedFields.Statement (.sysNopC c) :=
  fun _ => encodedFields_of_condition
theorem EncodedFields.sysNopD (c : Cond) : EncodedFields.Statement (.sysNopD c) :=
  fun _ => encodedFields_of_condition
theorem EncodedFields.sysNopE (c : Cond) : EncodedFields.Statement (.sysNopE c) :=
  fun _ => encodedFields_of_condition
theorem EncodedFields.sysNopF (c : Cond) : EncodedFields.Statement (.sysNopF c) :=
  fun _ => encodedFields_of_condition

end Sys2Proof.Laws
end

