-- ==== Sys2Proof/Tests/Slice0.lean ====
section
/-! SUPPORT. Tests: the well-formedness smoke test, one decoded word per constructor written out from R70 and R78, one
or two single steps per instruction with the results of spec/95_test_vectors.md (the row is named), and for each
statement with hypotheses a state and operands that meet them. -/

namespace Sys2Proof.Tests
open Sys2Proof Sys2Proof.Machine

/-! ## Well-formedness -/

theorem test_wf_accepts_index_15 : WellFormed (.add .al true 15 15 0xFFF) := by decide
theorem test_wf_refuses_destination_16 : ¬ WellFormed (.add .al true 16 0 0) ∧ ¬ WellFormed (.sub .al true 16 0 0) ∧
    ¬ WellFormed (.and .al true 16 0 0) ∧ ¬ WellFormed (.orr .al true 16 0 0) ∧ ¬ WellFormed (.eor .al true 16 0 0) ∧
    ¬ WellFormed (.mov .al true 16 0) ∧ ¬ WellFormed (.mvn .al true 16 0) ∧ ¬ WellFormed (.mrs .al 16) := by decide
theorem test_wf_refuses_source_a_16 : ¬ WellFormed (.add .al true 0 16 0) ∧ ¬ WellFormed (.sub .al true 0 16 0) ∧
    ¬ WellFormed (.and .al true 0 16 0) ∧ ¬ WellFormed (.orr .al true 0 16 0) ∧ ¬ WellFormed (.eor .al true 0 16 0) ∧
    ¬ WellFormed (.tst .al 16 0) ∧ ¬ WellFormed (.cmp .al 16 0) ∧ ¬ WellFormed (.msr .al 16) := by decide
theorem test_wf_refuses_source_b_16 : ¬ WellFormed (.and .al true 0 0 16) ∧ ¬ WellFormed (.orr .al true 0 0 16) ∧
    ¬ WellFormed (.eor .al true 0 0 16) ∧ ¬ WellFormed (.mvn .al true 0 16) ∧ ¬ WellFormed (.tst .al 0 16) ∧
    ¬ WellFormed (.cmp .al 0 16) := by decide

/-! ## Decoding: words written out field by field, cond class opcode S Rn Rd low12 (R70, R78) -/

theorem test_decode_add : decode 0b1110_000_0000_1_0000_0001_000000000001#32 = .add .al true 1 0 1 := by decide
theorem test_decode_sub : decode 0b0000_000_0001_0_0011_1111_111111111111#32 = .sub .eq false 15 3 0xFFF := by decide
theorem test_decode_and : decode 0b1110_000_0010_1_0001_0000_000000000010#32 = .and .al true 0 1 2 := by decide
theorem test_decode_orr : decode 0b1110_000_0011_0_0100_0101_111111110100#32 = .orr .al false 5 4 4 := by decide
theorem test_decode_eor : decode 0b1011_000_0100_1_0001_0000_000000000010#32 = .eor .lt true 0 1 2 := by decide
theorem test_decode_mov : decode 0b1010_000_0101_1_0000_0100_000000000111#32 = .mov .ge true 4 7 := by decide
theorem test_decode_mvn : decode 0b1110_000_0110_1_1111_0000_000000000010#32 = .mvn .al true 0 2 := by decide
theorem test_decode_tst : decode 0b1110_000_0111_1_0001_0000_000000000010#32 = .tst .al 1 2 := by decide
theorem test_decode_cmp : decode 0b1110_000_1000_0_0001_0000_000000001111#32 = .cmp .al 1 15 := by decide
theorem test_decode_alu_undefined :
    decode 0b1110_000_1001_1_0000_0000_000000000000#32 = .aluUndef9 .al ∧
    decode 0b0001_000_1010_0_0000_0000_000000000000#32 = .aluUndefA .ne ∧
    decode 0b0010_000_1011_0_0000_0000_000000000000#32 = .aluUndefB .cs ∧
    decode 0b0011_000_1100_0_0000_0000_000000000000#32 = .aluUndefC .cc ∧
    decode 0b0100_000_1101_0_0000_0000_000000000000#32 = .aluUndefD .mi ∧
    decode 0b0101_000_1110_0_0000_0000_000000000000#32 = .aluUndefE .pl ∧
    decode 0b1110_000_1111_1_0001_0000_000000000010#32 = .aluUndefF .al := by decide
theorem test_decode_muldiv : decode 0b1110_001_1111_1_1111_1111_111111111111#32 = .muldiv .al := by decide
theorem test_decode_ldst : decode 0b1110_010_0000_0_0001_0010_000000010000#32 = .ldst .al := by decide
theorem test_decode_b : decode 0b0001_011_1111_0_0000_0000_111111111101#32 = .b .ne 0xFFD := by decide
theorem test_decode_bl : decode 0b1110_011_0000_1_0000_0000_100000000001#32 = .bl .al 0x801 := by decide
theorem test_decode_mrs : decode 0b1110_100_0000_0_0000_0101_000000000000#32 = .mrs .al 5 := by decide
theorem test_decode_msr : decode 0b1110_101_0001_0_0011_0000_000000000000#32 = .msr .al 3 := by decide
theorem test_decode_svc : decode 0b1000_110_0010_0_0000_0000_000000000000#32 = .svc .hi := by decide
theorem test_decode_eret : decode 0b1111_111_0011_0_0000_0000_000000000000#32 = .eret .nv := by decide
theorem test_decode_system_no_ops :
    decode 0b1110_100_0100_0_0000_0000_000000000000#32 = .sysNop4 .al ∧
    decode 0b0110_100_0101_0_0000_0000_000000000000#32 = .sysNop5 .vs ∧
    decode 0b0111_101_0110_0_0000_0000_000000000000#32 = .sysNop6 .vc ∧
    decode 0b1000_101_0111_0_0000_0000_000000000000#32 = .sysNop7 .hi ∧
    decode 0b1001_110_1000_0_0000_0000_000000000000#32 = .sysNop8 .ls ∧
    decode 0b1100_110_1001_0_0000_0000_000000000000#32 = .sysNop9 .gt ∧
    decode 0b1010_110_1010_1_1010_0101_101001011010#32 = .sysNopA .ge ∧
    decode 0b0011_101_1011_0_0111_1000_100110101011#32 = .sysNopB .cc ∧
    decode 0b1101_111_1100_0_0000_0000_000000000000#32 = .sysNopC .le ∧
    decode 0b1110_111_1101_0_0000_0000_000000000000#32 = .sysNopD .al ∧
    decode 0b1110_111_1110_0_0000_0000_000000000000#32 = .sysNopE .al ∧
    decode 0b1111_111_1111_1_1111_1111_111111111111#32 = .sysNopF .nv := by decide
/-- R84's worked example. -/
theorem test_encode_worked_example : encode (.add .al true 1 0 1) = 0xE0101001#32 := by decide
theorem test_decode_table_word : decodeTableWord 32 0xE0101001 = some (.add .al true 1 0 1) := by decide
/-- R85's examples: `B .` and a branch to the next word. -/
theorem test_branch_offset : branchImm 0x1000 0x1000 = some 0xFFF#12 ∧ branchImm 0x1000 0x1004 = some 0#12 ∧
    branchImm 0x0 0x3000 = none := by decide
/-- L3, program P3: the word at 0x24, and P1: the word at 0x20. -/
theorem test_disassemble : disassemble 0x24 0x8840_0000 = "SVCHI" ∧
    disassemble 0x20 0x1600_0FFD = "BNE 0x0000_0018" := by decide

/-! ## Single steps -/

/-- The reset state with a `pc`, a status word and some registers. -/
def start (pc : Word) (p : Psr) (regs : List (Nat × Word)) : State :=
  { regs.foldl (fun s x => s.writeReg x.1 x.2) State.reset with pc := pc, psr := p }

/-- A status word from N, Z, C and V, with P. -/
def flags (n z c v : Bool) : Psr := { n := n, z := z, c := c, v := v, i := false, f := false, p := true }

/-- A register, the status word and `pc` after the word runs. -/
def result (w : Word) (s : State) (r : Nat) : Option (Word × Psr × Word) :=
  match stepWord w s with
  | .next t => some (t.readReg r, t.psr, t.pc)
  | _ => none

/-- The system registers, the status word and `pc` after the word runs. -/
def resultSys (w : Word) (s : State) : Option (SysRegs × Psr × Word) :=
  match stepWord w s with
  | .next t => some (t.sys, t.psr, t.pc)
  | _ => none

/-- A1. -/
theorem test_add_carry : result 0xE0101001 (start 0x100 (flags false false false false) [(0, 0xFFFFFFFF)]) 1 =
    some (0, flags false true true false, 0x104) := by decide
/-- A37: destination 15 under `supersede`. -/
theorem test_add_destination_pc : result 0xE010F001 (start 0x100 (flags true true true true) [(0, 0x2003)]) 15 =
    some (0x104, flags false false false false, 0x104) := by decide
/-- A9. -/
theorem test_sub_overflow : result 0xE0301001 (start 0x100 (flags false false false false) [(0, 0x80000000)]) 1 =
    some (0x7FFFFFFF, flags false false true true, 0x104) := by decide
/-- A12. -/
theorem test_sub_no_flags : result 0xE0201FFF (start 0x100 (flags false true false false) []) 1 =
    some (0xFFFFF001, flags false true false false, 0x104) := by decide
/-- A14. -/
theorem test_and_clears_carry : result 0xE0510002
    (start 0x100 (flags false false true true) [(1, 0xF0F0F0F0), (2, 0x0F0F0F0F)]) 0 =
    some (0, flags false true false false, 0x104) := by decide
/-- A16. -/
theorem test_orr_negative : result 0xE0710002 (start 0x100 (flags false false true true) [(1, 0x80000000), (2, 1)]) 0 =
    some (0x80000001, flags true false false false, 0x104) := by decide
/-- A19. -/
theorem test_eor : result 0xE0910002 (start 0x100 (flags false false false false) [(1, 0xFFFF0000), (2, 0xFFFF)]) 0 =
    some (0xFFFFFFFF, flags true false false false, 0x104) := by decide
/-- A20. -/
theorem test_mov_zero_extends : result 0xE0B03FFF (start 0x100 (flags true true true true) []) 3 =
    some (0xFFF, flags false false false false, 0x104) := by decide
/-- L2.2: MOVSGE with N different from V. -/
theorem test_mov_condition_fails : result 0xA0B04007 (start 0x100 (flags true false false false) []) 4 =
    some (0, flags true false false false, 0x104) := by decide
/-- A23. -/
theorem test_mvn : result 0xE0D00002 (start 0x100 (flags false true true true) []) 0 =
    some (0xFFFFFFFF, flags true false false false, 0x104) := by decide
/-- A26: C is held. -/
theorem test_tst_holds_carry : result 0xE0E10002 (start 0x100 (flags true false true false) [(1, 0xF), (2, 0xF0)]) 0 =
    some (0, flags false true true false, 0x104) := by decide
/-- A30. -/
theorem test_cmp_most_negative : result 0xE1010002 (start 0x100 (flags false false false false) [(2, 0x80000000)]) 0 =
    some (0, flags true false false true, 0x104) := by decide
/-- A41. -/
theorem test_cmp_source_pc : result 0xE101000F (start 0x100 (flags false false false false) [(1, 0x100)]) 0 =
    some (0, flags false true true false, 0x104) := by decide
/-- A35. -/
theorem test_alu_undefined_9 : result 0xE1310002
    (start 0x100 (flags false false false true) [(0, 0x55), (1, 1), (2, 2)]) 0 =
    some (0x55, flags false false false true, 0x104) := by decide
/-- L2.4. -/
theorem test_muldiv : result 0xE2112003 (start 0x100 (flags true true false false) [(1, 3), (2, 7)]) 2 =
    some (7, flags true true false false, 0x104) := by decide
/-- L2.4. -/
theorem test_ldst : result 0xE4012010 (start 0x100 (flags true true false false) [(1, 3), (2, 7)]) 2 =
    some (7, flags true true false false, 0x104) := by decide
/-- B7. -/
theorem test_b_wraps_below_zero : result 0xE6000800 (start 0 Psr.reset [(14, 0xAAAA0000)]) 14 =
    some (0xAAAA0000, Psr.reset, 0xFFFFE004) := by decide
/-- B2, the source's own example (L1.7). -/
theorem test_bl_to_itself : result 0xE6100FFF (start 0x10000000 Psr.reset []) 14 =
    some (0x10000004, Psr.reset, 0x10000000) := by decide
/-- B9: the link wraps. -/
theorem test_bl_link_wraps : result 0xE6100000 (start 0xFFFFFFFC Psr.reset [(14, 1)]) 14 =
    some (0, Psr.reset, 0) := by decide
/-- S9. -/
theorem test_mrs : result 0xE8005000 (start 0x200 Psr.reset []) 5 = some (1, Psr.reset, 0x204) := by decide
/-- S13: unprivileged code sets P. -/
theorem test_msr_raises_privilege : result 0xE8210000 (start 0x500 (decodePsr 0) [(1, 0xF0000001)]) 1 =
    some (0xF0000001, flags true true true true, 0x504) := by decide
/-- A43. -/
theorem test_msr_source_pc : result 0xE82F0000 (start 0x80000000 Psr.reset []) 0 =
    some (0, decodePsr 0x80000000, 0x80000004) := by decide
/-- S1, the source's own example (L1.8). -/
theorem test_svc : resultSys 0xE8400000
    (hostWriteSys (start 0x20000010 (decodePsr 0xA0000080) []) .vbar 0x400) =
    some ({ SysRegs.reset with vbar := 0x400, elr := 0x20000010, spsr := 0xA0000080 }, decodePsr 0xA0000081, 0x408) := by
  decide
/-- S3. -/
theorem test_svc_masks_vbar : resultSys 0xE8400000 (hostWriteSys (start 0x100 Psr.reset []) .vbar 0xFFFFFFFF) =
    some ({ SysRegs.reset with vbar := 0xFFFFFFFF, elr := 0x100, spsr := 1 }, Psr.reset, 0xFFFFFC08) := by decide
/-- S7. -/
theorem test_eret : resultSys 0xE8600000
    (hostWriteSys (hostWriteSys (start 0x200 Psr.reset []) .elr 0x1003) .spsr 0xFFFFFFFF) =
    some ({ SysRegs.reset with elr := 0x1003, spsr := 0xFFFFFFFF }, decodePsr 0xF00000C1, 0x1000) := by decide
/-- S6. -/
theorem test_eret_from_reset : resultSys 0xE8600000 State.reset = some (SysRegs.reset, decodePsr 0, 0) := by decide
/-- S11. -/
theorem test_system_no_op_4 : result 0xEA912003 (start 0x200 Psr.reset [(2, 9)]) 2 = some (9, Psr.reset, 0x204) := by
  decide
/-- S12. -/
theorem test_system_no_op_F : result 0xEFFFFFFF (start 0x200 Psr.reset []) 0 = some (0, Psr.reset, 0x204) := by decide
/-- L2.9: one word per class whose condition fails. -/
theorem test_condition_failure :
    result 0x06100010 (start 0x100 Psr.reset [(14, 0x55)]) 14 = some (0x55, Psr.reset, 0x104) ∧
    result 0xF8230000 (start 0x100 Psr.reset []) 0 = some (0, Psr.reset, 0x104) ∧
    resultSys 0x18400000 (start 0x100 (flags false true false false) []) =
      some (SysRegs.reset, flags false true false false, 0x104) ∧
    result 0xF2112003 (start 0x100 Psr.reset []) 0 = some (0, Psr.reset, 0x104) ∧
    result 0xF0000000 (start 0xFFFFFFFC Psr.reset []) 0 = some (0, Psr.reset, 0) := by decide
/-- L2.7: a word with unused bits set. -/
theorem test_codec : encodePsr (decodePsr 0x12345678) = 0x10000040 ∧ encodePsr (decodePsr 0x0FFFFF3E) = 0 := by decide
/-- H3, H4, L1.3. -/
theorem test_host_registers : hostGet (hostSet State.reset 16 0x1234) 16 = 0 ∧
    hostGet (hostSet State.reset 13 3) 13 = 3 ∧ hostGet (hostSet State.reset 15 0x1003) 15 = 0x1000 := by decide
/-- H6. -/
theorem test_host_reset : (hostReset (hostWriteSys State.reset .vbar 0x400)).pc = 0 := by decide
/-- R57 and R58: UART0 wins over generic MMIO; the ends of two ranges. -/
theorem test_address_map : classify 0x40002000 = .uart0 ∧ classify 0x40003000 = .genericMmio ∧
    classify 0x07FFFFFF = .rom ∧ classify 0x08000000 = .unknown := by decide
/-- A word stored where the machine fetches runs in one step from reset. -/
theorem test_step_runs_placed_word :
    (match step (State.reset.withFetchWord 32 0xE0A03800) with
      | .next t => some (t.readReg 3, t.pc)
      | _ => none) = some (0x800, 4) := by decide

/-! ## Witnesses: for each statement with hypotheses, a state and operands that meet them -/

/-- A small state the witnesses use: `pc` at 0x100, some registers, reset status. -/
def w0 : State := start 0x100 Psr.reset [(0, 7), (1, 0xFFFFFFFF), (14, 0x55)]

theorem witness_DecodeEncodeRoundTrip : WellFormed (.and .le true 15 0 15) := by decide
theorem witness_EncodeDecodeClearsIgnoredBits :
    (⟨"MRS", 0x09E00000, 0x08000000, 0x061F0FFF⟩ : OpcodeRow) ∈ opcodeMap ∧
    (⟨"MRS", 0x09E00000, 0x08000000, 0x061F0FFF⟩ : OpcodeRow).has 0xEE1F5FFF = true := by decide
theorem witness_OpcodeRowsAreDisjointAndCover :
    (⟨"BL", 0x0E100000, 0x06100000, 0x01EFF000⟩ : OpcodeRow) ∈ opcodeMap := by decide
theorem witness_SystemClassEncodingsBehaveAlike : (0xE8400000#32).getLsbD 27 = true ∧
    (0xEE400000#32).getLsbD 27 = true ∧ 0xE8400000#32 &&& 0xF9FFFFFF#32 = 0xEE400000#32 &&& 0xF9FFFFFF#32 := by decide
/-- Both clauses, the first at both ends of the window. -/
theorem witness_BranchAssemblyReachesTarget :
    branchImm 0x4000 0x2004 = some 0x800#12 ∧ branchImm 0x1000 0x3000 = some 0x7FF#12 ∧
    (0x4000#32).toNat % 4 = 0 ∧ (0x1000#32).toNat % 4 = 0 ∧
    0 ≤ ((0x2000#32).toNat : Int) + 4 + 4 * (0x800#12).toInt ∧
    ((0x2000#32).toNat : Int) + 4 + 4 * (0x800#12).toInt < 2 ^ 32 := by decide
theorem witness_StepRunsTheDecodedInstruction :
    let s := State.reset.withFetchWord 32 0xE0A03800
    decodeBytes [s.imem.read s.pc, s.imem.read (s.pc + 1), s.imem.read (s.pc + 2), s.imem.read (s.pc + 3)] =
      .ok (.mov .al false 3 0x800, []) := by rfl
theorem witness_PlacedWordIsRunNext : w0.imem.wf = true ∧ 0xFFFFFFFF < 2 ^ 32 := by decide
theorem witness_StepKeepsTheInvariant : (State.reset.withFetchWord 32 0xE8400000).Inv ∧
    ∃ t, step (State.reset.withFetchWord 32 0xE8400000) = .next t :=
  ⟨by decide, _, (step_eq _).trans (exec_eq _ _)⟩
theorem witness_RunsKeepImageAndSystemRegisters : ∃ t, Sys2Proof.core.run 3 State.reset = .next t := ⟨_, rfl⟩
theorem witness_ExceptionPairChangesOnlyBySvc : ∃ t,
    step (hostLoadWord w0 0x100 0xE8400000) = .next t ∧ t.sys.elr ≠ (hostLoadWord w0 0x100 0xE8400000).sys.elr ∧
    t.sys.spsr ≠ (hostLoadWord w0 0x100 0xE8400000).sys.spsr :=
  ⟨_, (step_eq _).trans (exec_eq _ _), by decide, by decide⟩
/-- Every arm of the statement's case split, and a failing condition. -/
theorem witness_ModeChangesOnlyAsListed :
    (∃ t, exec (.svc .al) w0 = .next t) ∧ (∃ t, exec (.msr .al 0) w0 = .next t) ∧ (∃ t, exec (.eret .al) w0 = .next t) ∧
    (∃ t, exec (.tst .al 0 1) w0 = .next t) ∧ (∃ t, exec (.msr .nv 0) w0 = .next t) ∧
    w0.psr.passes .al = true ∧ w0.psr.passes .nv = false :=
  ⟨⟨_, exec_eq _ _⟩, ⟨_, exec_eq _ _⟩, ⟨_, exec_eq _ _⟩, ⟨_, exec_eq _ _⟩, ⟨_, exec_eq _ _⟩, by decide, by decide⟩
/-- A destination, and the link register as BL's. -/
theorem witness_RegistersChangeOnlyAsDestinations :
    (∃ t, exec (.mov .al false 0 5) w0 = .next t ∧ t.readReg 0 ≠ w0.readReg 0) ∧
    ∃ t, exec (.bl .al 0) w0 = .next t ∧ t.readReg 14 ≠ w0.readReg 14 :=
  ⟨⟨_, exec_eq _ _, by decide⟩, _, exec_eq _ _, by decide⟩
/-- One instruction for each clause. -/
theorem witness_FlagsChangeOnlyAsListed :
    (∃ t, exec (.add .al false 0 0 1) w0 = .next t) ∧ mayWriteNZ (.add .al false 0 0 1) = false ∧
    (∃ t, exec (.tst .al 0 1) w0 = .next t) ∧ mayWriteCV (.tst .al 0 1) = false ∧
    mayWriteMasks (.cmp .al 0 1) = false ∧ mayWritePrivilege (.cmp .al 0 1) = false :=
  ⟨⟨_, exec_eq _ _⟩, by decide, ⟨_, exec_eq _ _⟩, by decide, by decide, by decide⟩
theorem witness_ModeAndMasksDecideNothing : (∀ c, Instr.mrs .al 3 ≠ .mrs c 4) ∧ ∀ c, Instr.cmp .al 0 1 ≠ .svc c :=
  ⟨fun _ h => by injection h with _ h; exact absurd h (by decide), fun _ h => nomatch h⟩
/-- `pc` at both ends of the address space. -/
theorem witness_NextPcOfEveryInstruction : (start 0xFFFFFFFC Psr.reset []).PcAligned ∧ State.reset.PcAligned := by decide
theorem witness_ConditionReadsOnlyArithmeticFlags :
    (decodePsr 0xA0000000).n = (decodePsr 0xA00000C1).n ∧ (decodePsr 0xA0000000).z = (decodePsr 0xA00000C1).z ∧
    (decodePsr 0xA0000000).c = (decodePsr 0xA00000C1).c ∧ (decodePsr 0xA0000000).v = (decodePsr 0xA00000C1).v := by decide
theorem witness_FailedConditionOnlyAdvances : w0.PcAligned ∧ w0.psr.passes (Instr.svc .eq).cond = false := by decide
theorem witness_AddCompletes : w0.PcAligned ∧ w0.psr.passes .al = true := by decide
theorem witness_SubCompletes : w0.PcAligned ∧ w0.psr.passes .ne = true := by decide
theorem witness_BitwiseInstructionsComplete : w0.PcAligned ∧ w0.psr.passes .cc = true := by decide
theorem witness_MovesComplete : w0.PcAligned ∧ w0.psr.passes .pl = true := by decide
theorem witness_TestCompletes : w0.PcAligned ∧ w0.psr.passes .vc = true := by decide
theorem witness_CompareCompletes : w0.PcAligned ∧ w0.psr.passes .ge = true := by decide
/-- Both clauses, the first and the last opcode. -/
theorem witness_UndefinedAluOpcodesOnlyAdvance : w0.PcAligned ∧
    0xE1310002#32 &&& 0x0FE00000#32 = 0x01200000#32 ∧ 0xE1F10002#32 &&& 0x0FE00000#32 = 0x01E00000#32 := by decide
theorem witness_DestinationFifteenByPolicy : w0.PcAligned ∧ (14 : Nat) ≠ 15 ∧ (16 : Nat) ≠ 15 := by decide
/-- Both clauses with hypotheses, at the ends of the destination's range. -/
theorem witness_SourceFifteenIsOwnAddress : w0.psr.passes .al = true ∧ 0 < 15 ∧ 14 < 15 := by decide
/-- Both classes. -/
theorem witness_StubClassesOnlyAdvance : w0.PcAligned ∧ 0xE3FFFFFF#32 &&& 0x0E000000#32 = 0x02000000#32 ∧
    0xE4FFFFFF#32 &&& 0x0E000000#32 = 0x04000000#32 := by decide
theorem witness_BranchCompletes : w0.psr.passes .al = true ∧ 0xE7E00003#32 &&& 0x0E100000#32 = 0x06000000#32 ∧
    w0.psr.passes (condOfCode ((0xE7E00003#32).extractLsb' 28 4)) = true := by decide
theorem witness_BranchWithLinkCompletes : w0.psr.passes .al = true ∧
    0xE6100801#32 &&& 0x0E100000#32 = 0x06100000#32 ∧
    w0.psr.passes (condOfCode ((0xE6100801#32).extractLsb' 28 4)) = true := by decide
theorem witness_BranchDisplacementIsExact : (0xFFFFFFFC#32).toNat % 4 = 0 := by decide
theorem witness_StatusReadCompletes : w0.PcAligned ∧ w0.psr.passes .al = true := by decide
theorem witness_StatusWriteCompletes : w0.PcAligned ∧ w0.psr.passes .lt = false ∧ w0.psr.passes .gt = true := by decide
theorem witness_SupervisorCallEntersException : w0.psr.passes .al = true ∧
    0xEE5FFFFF#32 &&& 0x09E00000#32 = 0x08400000#32 := by decide
/-- The entry and return clause and the clause about words. -/
theorem witness_ExceptionReturnRestores :
    (w0.PcAligned ∧ w0.psr.passes .al = true ∧ ∃ t, exec (.svc .al) w0 = .next t ∧ t.psr.passes .ne = true) ∧
    0xE8600000#32 &&& 0x09E00000#32 = 0x08600000#32 :=
  ⟨⟨by decide, by decide, _, exec_eq _ _, by decide⟩, by decide⟩
theorem witness_ReturnReexecutesSupervisorCall : w0.PcAligned ∧ w0.psr.passes .ls = true := by decide
/-- The state of S10b of 95_test_vectors.md: after S10a's entry, with the handler at 0x0C. -/
def s10b : State :=
  { start 0x0C (decodePsr 0x20000001) [] with sys := { SysRegs.reset with elr := 0x40, spsr := 0x20000000 } }
/-- Both clauses; the first at S10b's nested call, one instruction after the entry of S10a. -/
theorem witness_NestedSupervisorCallLosesOuterReturn :
    (s10b.psr.p = true ∧ s10b.psr.passes .al = true ∧ s10b.sys.spsr = 0x20000000#32) ∧
    w0.psr.passes .al = true ∧
    ∃ t, exec (.svc .al) w0 = .next t ∧ t.psr.passes .al = true := ⟨by decide, by decide, _, exec_eq _ _, by decide⟩
/-- Both clauses, the first and the last opcode. -/
theorem witness_SystemNoOpsOnlyAdvance : w0.PcAligned ∧ 0xE8800000#32 &&& 0x09E00000#32 = 0x08800000#32 ∧
    0xEFFFFFFF#32 &&& 0x09E00000#32 = 0x09E00000#32 := by decide
theorem witness_ResetLeavesTheStatedValues : (0 : Nat) < 16 ∧ (15 : Nat) < 16 := by decide
/-- The clauses at the ends of their index ranges. -/
theorem witness_HostRegisterAccess : (14 : Nat) < 15 ∧ (0 : Nat) < 15 ∧ (15 : Nat) ≠ 14 ∧ (16 : Nat) ≤ 16 := by decide
theorem witness_VectorBaseIsMaskedOnUse : (0x400#32).toNat / 1024 = (0x7FF#32).toNat / 1024 := by decide

end Sys2Proof.Tests
end

section
/-! PROOFS. The state's family: the codec of the packed status word (R31, R32) and VBAR's masking on use (R36). -/

namespace Sys2Proof.Machine

/-! ## The packed status word, bit by bit -/

/-- A boolean placed at bit `k` shows at that bit and nowhere else. -/
theorem getLsbD_bitAt {k : Nat} (hk : k < 32) (b : Bool) (j : Nat) :
    (bitAt b k).getLsbD j = (decide (j = k) && b) := by
  rcases lt_trichotomy j k with hlt | rfl | hgt
  · simp [bitAt, hlt, hlt.ne]
  · simp [bitAt, hk]
  · have hpos : j - k ≠ 0 := by omega
    simp [bitAt, hpos, hgt.ne']

/-- The packed status word holds each flag at its own bit and false elsewhere (R31). -/
theorem getLsbD_encodePsr (p : Psr) (k : Nat) : (encodePsr p).getLsbD k =
    if k = 31 then p.n else if k = 30 then p.z else if k = 29 then p.c else if k = 28 then p.v
    else if k = 7 then p.i else if k = 6 then p.f else if k = 0 then p.p else false := by
  have hor : (encodePsr p).getLsbD k = (decide (k = 31) && p.n || decide (k = 30) && p.z || decide (k = 29) && p.c ||
      decide (k = 28) && p.v || decide (k = 7) && p.i || decide (k = 6) && p.f || decide (k = 0) && p.p) := by
    simp only [encodePsr, BitVec.getLsbD_or, getLsbD_bitAt, Nat.reduceLT]
  rw [hor]
  split_ifs <;> simp [*]

/-- The decoded record takes each flag from its own bit of the word (R32). -/
theorem decodePsr_eq (w : Word) : decodePsr w = Psr.mk (w.getLsbD 31) (w.getLsbD 30) (w.getLsbD 29) (w.getLsbD 28)
    (w.getLsbD 7) (w.getLsbD 6) (w.getLsbD 0) := rfl

/-- Settles O41: the bits of the encoder are disjoint, and the decoder reads the same seven. -/
theorem statusCodecBits : Obligations.StatusCodecBits := ⟨getLsbD_encodePsr, decodePsr_eq⟩

/-! ## VBAR, stored whole and masked on use -/

/-- A 32-bit system register reads back as the host wrote it (R36 to R39). -/
@[simp] theorem hostReadSys_hostWriteSys_same (s : State) (g : SysReg) (v : Word) :
    hostReadSys (hostWriteSys s g v) g = v := by
  cases g <;> rfl

/-- A host write of VBAR changes no other system register. -/
@[simp] theorem hostWriteSys_vbar_sys (s : State) (v : Word) :
    (hostWriteSys s .vbar v).sys = { s.sys with vbar := v } := rfl

/-- Two words have the same 1024-byte base exactly when they differ only in their low 10 bits. -/
theorem align1K_eq_align1K_iff (w w' : Word) : align1K w = align1K w' ↔ w.toNat / 1024 = w'.toNat / 1024 := by
  rw [← BitVec.toNat_inj, align1K_toNat, align1K_toNat]
  omega

/-- The supervisor call's handler address, as arithmetic: nothing wraps and the alignment of `pc` clears nothing. -/
theorem align4_align1K_add_svcOffset_toNat (w : Word) :
    (align4 (align1K w + svcOffset)).toNat = w.toNat / 1024 * 1024 + 8 := by
  have hw := w.isLt
  have hoff : svcOffset.toNat = 8 := rfl
  have hsum : (align1K w + svcOffset).toNat = w.toNat / 1024 * 1024 + 8 := by
    rw [BitVec.toNat_add, align1K_toNat, hoff]
    omega
  rw [align4_toNat, hsum]
  omega

/-- After reset VBAR is 0 (R230). -/
theorem reset_sys_vbar : State.reset.sys.vbar = 0 := rfl

/-- Settles O52: an entry sees VBAR only through `align1K`. -/
theorem vectorBaseIsMaskedOnUse : Obligations.VectorBaseIsMaskedOnUse := by
  refine ⟨fun s v => hostReadSys_hostWriteSys_same s .vbar v, fun s v => ?_, fun s v v' off hbase => ?_, reset_sys_vbar⟩
  · rw [State.enterException_pc, hostWriteSys_vbar_sys, align4_align1K_add_svcOffset_toNat]
  · have hmask : align1K v = align1K v' := (align1K_eq_align1K_iff v v').2 hbase
    simp only [State.enterException_pc, hostWriteSys_vbar_sys, hmask]

end Sys2Proof.Machine
end

section
/-! PROOFS. The encoding family: the decoded record's fields as numbers (R71, R73). -/

namespace Sys2Proof

/-- A field of `n` bits from bit `k` up, as a number. -/
theorem toNat_extractLsb'_eq_div_mod (w : Word) (k n : Nat) :
    (w.extractLsb' k n).toNat = w.toNat / 2 ^ k % 2 ^ n := by
  rw [BitVec.extractLsb'_toNat, Nat.shiftRight_eq_div_pow]

/-- A field that starts at bit 0 is a remainder. -/
theorem toNat_extractLsb'_zero_eq_mod (w : Word) (n : Nat) : (w.extractLsb' 0 n).toNat = w.toNat % 2 ^ n := by
  rw [toNat_extractLsb'_eq_div_mod, pow_zero, Nat.div_one]

/-- The condition's code is the top four bits: no bit stands above them, so no remainder is left to take. The decoder's
condition table loses nothing of the code, whatever its numbering (D1). -/
theorem decodeFields_cond_code_toNat (w : Word) : (decodeFields w).cond.code.toNat = w.toNat / 2 ^ 28 := by
  have htop : w.toNat / 2 ^ 28 < 2 ^ 4 := Nat.div_lt_of_lt_mul w.isLt
  calc (decodeFields w).cond.code.toNat
      _ = (w.extractLsb' 28 4).toNat := congrArg BitVec.toNat (code_condOfCode _)
      _ = w.toNat / 2 ^ 28 % 2 ^ 4 := toNat_extractLsb'_eq_div_mod w 28 4
      _ = w.toNat / 2 ^ 28 := Nat.mod_eq_of_lt htop

/-- The flag-update bit is bit 20. -/
theorem decodeFields_s_eq_decide (w : Word) : (decodeFields w).s = decide (w.toNat / 2 ^ 20 % 2 = 1) :=
  Nat.testBit_eq_decide_div_mod_eq

/-- R73's table, by the number that bits 27 to 25 spell. -/
def classOfNumber (n : Nat) : InstrClass :=
  match n with
  | 0 => .alu | 1 => .mulDiv | 2 => .loadStore | 3 => .branch | _ => .system

/-- The decoder's class table is R73's: the two agree on the eight patterns of three bits. -/
theorem classOf_eq_classOfNumber (k : BitVec 3) : classOf k = classOfNumber k.toNat := by
  revert k; decide

/-- The class is R73's for the number in bits 27 to 25. -/
theorem decodeFields_cls_eq_classOfNumber (w : Word) :
    (decodeFields w).cls = classOfNumber (w.toNat / 2 ^ 25 % 8) :=
  calc (decodeFields w).cls
      _ = classOfNumber (w.extractLsb' 25 3).toNat := classOf_eq_classOfNumber _
      _ = classOfNumber (w.toNat / 2 ^ 25 % 8) := congrArg classOfNumber (toNat_extractLsb'_eq_div_mod w 25 3)

/-- Settles O4, field by field. -/
theorem decodedFieldsAreWordBits : Obligations.DecodedFieldsAreWordBits := fun w =>
  ⟨rfl,
   decodeFields_cond_code_toNat w,
   decodeFields_cls_eq_classOfNumber w,
   toNat_extractLsb'_eq_div_mod w 21 4,
   decodeFields_s_eq_decide w,
   toNat_extractLsb'_eq_div_mod w 16 4,
   toNat_extractLsb'_eq_div_mod w 12 4,
   toNat_extractLsb'_zero_eq_mod w 4,
   toNat_extractLsb'_zero_eq_mod w 12⟩

end Sys2Proof
end

section
/-! PROOFS. The conditions' family: what the evaluator reads (R105) and what a failed condition leaves (R103). -/

namespace Sys2Proof.Machine

/-- The condition is judged by N, Z, C and V alone: I, F and P are never read (R105). -/
theorem Psr.passes_congr {p q : Psr} (hn : p.n = q.n) (hz : p.z = q.z) (hc : p.c = q.c) (hv : p.v = q.v) (c : Cond) :
    p.passes c = q.passes c :=
  calc p.passes c
      _ = condPasses c p.n p.z p.c p.v := rfl
      _ = condPasses c q.n q.z q.c q.v := by rw [hn, hz, hc, hv]
      _ = q.passes c := rfl

/-- AL passes whatever the status word holds (R105). -/
@[simp] theorem Psr.passes_al (p : Psr) : p.passes .al = true := rfl

/-- NV fails whatever the status word holds (R105). -/
@[simp] theorem Psr.passes_nv (p : Psr) : p.passes .nv = false := rfl

/-- Settles O24: equal arithmetic flags give equal answers, and the rows of AL and NV are constant. -/
theorem conditionReadsOnlyArithmeticFlags : Obligations.ConditionReadsOnlyArithmeticFlags :=
  ⟨fun c _ _ hn hz hc hv => Psr.passes_congr hn hz hc hv c, fun p => ⟨p.passes_al, p.passes_nv⟩⟩

/-- Settles O25: `exec` answers the advanced state for every instruction, and from an aligned `pc` the alignment that
every write of `pc` makes (R26) clears nothing. -/
theorem failedConditionOnlyAdvances : Obligations.FailedConditionOnlyAdvances := by
  intro i s haligned hfails
  calc exec i s
      _ = .next s.advance := exec_fail hfails
      _ = .next { s with pc := s.pc + 4 } := congrArg _ (State.advance_eq haligned)

end Sys2Proof.Machine
end

section
/-! PROOFS. The ALU's family: the flags of an addition (R121) and the undefined opcodes (R133). -/

namespace Sys2Proof.Machine

/-! ## The flags of an addition -/

/-- The model's overflow of an addition, its two bounds read as one condition (R121, first form). -/
theorem addOverflow_eq_decide_out_of_range (a b : Word) :
    addOverflow a b = decide (a.toInt + b.toInt < -2 ^ 31 ∨ 2 ^ 31 - 1 < a.toInt + b.toInt) :=
  (Bool.decide_or _ _).symm

/-- The model's overflow of an addition is the library's signed overflow. -/
theorem addOverflow_eq_saddOverflow (a b : Word) : addOverflow a b = a.saddOverflow b := by
  have hupper : 2 ^ 31 - 1 < a.toInt + b.toInt ↔ 2 ^ (32 - 1) ≤ a.toInt + b.toInt := by omega
  simp only [addOverflow, BitVec.saddOverflow, hupper, ge_iff_le, Bool.or_comm, Nat.add_one_sub_one]

/-- Overflow by signs: the operands have one sign and the result the other (R121, second form). -/
theorem addOverflow_eq_decide_sign_differs (a b : Word) :
    addOverflow a b = (decide (a.msb = b.msb) && decide ((a + b).msb ≠ a.msb)) :=
  calc addOverflow a b
      _ = a.saddOverflow b := addOverflow_eq_saddOverflow a b
      _ = (a.msb == b.msb && !((a + b).msb == a.msb)) := BitVec.saddOverflow_eq a b
      _ = (decide (a.msb = b.msb) && decide ((a + b).msb ≠ a.msb)) := by
        simp only [ne_eq, decide_not, beq_eq_decide]

/-- Settles O26: the carry is the model's definition, the overflow either of R121's forms. -/
theorem addFlagsBothForms : Obligations.AddFlagsBothForms := fun a b =>
  ⟨rfl, addOverflow_eq_decide_out_of_range a b, addOverflow_eq_decide_sign_differs a b⟩

/-! ## The undefined ALU opcodes -/

/-- An instruction whose effect is the advance only advances, whatever its condition: passed and failed conditions
meet (R101, R103). -/
theorem exec_of_effect_eq_advance {i : Instr} {s : State} (haligned : s.PcAligned) (heffect : effect i s = s.advance) :
    exec i s = .next { s with pc := s.pc + 4 } :=
  calc exec i s
      _ = .next (if s.psr.passes i.cond = true then effect i s else s.advance) := exec_eq i s
      _ = .next s.advance := by rw [heffect, ite_self]
      _ = .next { s with pc := s.pc + 4 } := congrArg _ (State.advance_eq haligned)

/-- The instructions of ALU opcodes 0x9 to 0xF under one condition (R133). -/
def undefinedAluInstrs (c : Cond) : List Instr :=
  [.aluUndef9 c, .aluUndefA c, .aluUndefB c, .aluUndefC c, .aluUndefD c, .aluUndefE c, .aluUndefF c]

/-- An undefined ALU instruction only advances (R133). -/
theorem exec_of_mem_undefinedAluInstrs {c : Cond} {i : Instr} {s : State} (hi : i ∈ undefinedAluInstrs c)
    (haligned : s.PcAligned) : exec i s = .next { s with pc := s.pc + 4 } := by
  simp only [undefinedAluInstrs, List.mem_cons, List.not_mem_nil, or_false] at hi
  rcases hi with rfl | rfl | rfl | rfl | rfl | rfl | rfl <;> exact exec_of_effect_eq_advance haligned rfl

/-- The mask of an ALU row (R78) keeps the class bits. -/
theorem extractLsb'_cls_and_aluRowMask (w : Word) : (w &&& 0x0FE00000#32).extractLsb' 25 3 = w.extractLsb' 25 3 := by
  have hones : (0x0FE00000#32).extractLsb' 25 3 = BitVec.allOnes 3 := by decide
  rw [BitVec.extractLsb'_and, hones, BitVec.and_allOnes]

/-- The mask of an ALU row (R78) keeps the opcode bits. -/
theorem extractLsb'_opcode_and_aluRowMask (w : Word) :
    (w &&& 0x0FE00000#32).extractLsb' 21 4 = w.extractLsb' 21 4 := by
  have hones : (0x0FE00000#32).extractLsb' 21 4 = BitVec.allOnes 4 := by decide
  rw [BitVec.extractLsb'_and, hones, BitVec.and_allOnes]

/-- A word whose class bits are 0 is decoded by the ALU's opcode table (R73, R78). -/
theorem decode_eq_aluInstr {w : Word} (hcls : w.extractLsb' 25 3 = 0) : decode w = aluInstr (decodeFields w) := by
  have halu : (decodeFields w).cls = .alu := congrArg classOf hcls
  rw [decode, instrOf, halu]

/-- The ALU's undefined opcodes (R133). -/
def undefinedAluOpcodes : List (BitVec 4) := [0x9, 0xA, 0xB, 0xC, 0xD, 0xE, 0xF]

/-- The ALU's opcode table gives each undefined opcode its undefined instruction (R78, R133). -/
theorem aluInstr_mem_undefinedAluInstrs {d : Decoded} (hop : d.opcode ∈ undefinedAluOpcodes) :
    aluInstr d ∈ undefinedAluInstrs d.cond := by
  simp only [undefinedAluOpcodes, List.mem_cons, List.not_mem_nil, or_false] at hop
  rcases hop with h | h | h | h | h | h | h <;> simp [aluInstr, h, undefinedAluInstrs]

/-- The patterns of the rows of ALU opcodes 0x9 to 0xF (R78). -/
def undefinedAluPatterns : List Word :=
  [0x01200000#32, 0x01400000#32, 0x01600000#32, 0x01800000#32, 0x01A00000#32, 0x01C00000#32, 0x01E00000#32]

/-- Each of the seven patterns holds class 0 and an undefined opcode. -/
theorem undefinedAluPatterns_fields :
    ∀ p ∈ undefinedAluPatterns, p.extractLsb' 25 3 = 0 ∧ p.extractLsb' 21 4 ∈ undefinedAluOpcodes := by
  simp [undefinedAluPatterns, undefinedAluOpcodes]

/-- A word of one of the seven rows decodes to an undefined ALU instruction under the word's own condition. -/
theorem decode_mem_undefinedAluInstrs {w : Word} (hrow : w &&& 0x0FE00000#32 ∈ undefinedAluPatterns) :
    decode w ∈ undefinedAluInstrs (decodeFields w).cond := by
  obtain ⟨hcls, hop⟩ := undefinedAluPatterns_fields _ hrow
  rw [extractLsb'_cls_and_aluRowMask] at hcls
  rw [extractLsb'_opcode_and_aluRowMask] at hop
  rw [decode_eq_aluInstr hcls]
  exact aluInstr_mem_undefinedAluInstrs hop

/-- Settles O34: the words of the seven rows decode to the seven instructions, and each of these only advances. -/
theorem undefinedAluOpcodesOnlyAdvance : Obligations.UndefinedAluOpcodesOnlyAdvance :=
  ⟨fun _ _ _ hi haligned => exec_of_mem_undefinedAluInstrs hi haligned,
   fun _ _ hrow haligned => exec_of_mem_undefinedAluInstrs (decode_mem_undefinedAluInstrs hrow) haligned⟩

end Sys2Proof.Machine
end

section
/-! PROOFS. The stub classes' family: multiply/divide and load/store have one effect, the advance (R150, R151). -/

namespace Sys2Proof.Machine

/-- The mask of a stub class's row (R78) keeps the class bits. -/
theorem extractLsb'_cls_and_stubRowMask (w : Word) : (w &&& 0x0E000000#32).extractLsb' 25 3 = w.extractLsb' 25 3 := by
  have hones : (0x0E000000#32).extractLsb' 25 3 = BitVec.allOnes 3 := by decide
  rw [BitVec.extractLsb'_and, hones, BitVec.and_allOnes]

/-- A word that a row's pattern matches under that mask has the pattern's class. -/
theorem decodeFields_cls_of_stubRow {w p : Word} (hrow : w &&& 0x0E000000#32 = p) :
    (decodeFields w).cls = classOf (p.extractLsb' 25 3) :=
  calc (decodeFields w).cls
      _ = classOf ((w &&& 0x0E000000#32).extractLsb' 25 3) := congrArg classOf (extractLsb'_cls_and_stubRowMask w).symm
      _ = classOf (p.extractLsb' 25 3) := by rw [hrow]

/-- Every word of the multiply/divide row is the one instruction of its class: the opcode, S, the register and the
immediate fields have no meaning (R78, R150). -/
theorem decode_eq_muldiv {w : Word} (hrow : w &&& 0x0E000000#32 = 0x02000000#32) :
    decode w = .muldiv (decodeFields w).cond := by
  have hcls : (decodeFields w).cls = .mulDiv := decodeFields_cls_of_stubRow hrow
  rw [decode, instrOf, hcls]

/-- Every word of the load/store row is the one instruction of its class: there is no addressing mode (R78, R151). -/
theorem decode_eq_ldst {w : Word} (hrow : w &&& 0x0E000000#32 = 0x04000000#32) :
    decode w = .ldst (decodeFields w).cond := by
  have hcls : (decodeFields w).cls = .loadStore := decodeFields_cls_of_stubRow hrow
  rw [decode, instrOf, hcls]

/-- The multiply/divide instruction only advances, whatever its condition (R150). -/
theorem exec_muldiv_of_pcAligned (c : Cond) {s : State} (haligned : s.PcAligned) :
    exec (.muldiv c) s = .next { s with pc := s.pc + 4 } :=
  exec_of_effect_eq_advance haligned rfl

/-- The load/store instruction only advances, whatever its condition (R151). -/
theorem exec_ldst_of_pcAligned (c : Cond) {s : State} (haligned : s.PcAligned) :
    exec (.ldst c) s = .next { s with pc := s.pc + 4 } :=
  exec_of_effect_eq_advance haligned rfl

/-- Settles O37: the words of a stub row decode to the row's instruction, and this only advances. -/
theorem stubClassesOnlyAdvance : Obligations.StubClassesOnlyAdvance := by
  refine ⟨fun c s haligned => ⟨exec_muldiv_of_pcAligned c haligned, exec_ldst_of_pcAligned c haligned⟩,
    fun w s hrow haligned => ?_⟩
  rw [stepWord]
  rcases hrow with hmuldiv | hldst
  · rw [decode_eq_muldiv hmuldiv]
    exact exec_muldiv_of_pcAligned _ haligned
  · rw [decode_eq_ldst hldst]
    exact exec_ldst_of_pcAligned _ haligned

end Sys2Proof.Machine
end

section
/-! PROOFS. The branch family: B and BL go to the target of R160, and BL writes the link (R161, R162). -/

namespace Sys2Proof.Machine

/-! ## The state after a branch -/

/-- A branch target is aligned already, so the alignment that every write of `pc` makes (R26) clears nothing. -/
theorem State.setPc_branchTarget (s : State) (pc0 : Word) (imm : BitVec 12) :
    s.setPc (branchTarget pc0 imm) = { s with pc := branchTarget pc0 imm } :=
  congrArg (fun target => { s with pc := target }) (align4_align4 (pc0 + 4 + branchDisp imm))

/-- Index 14 is the link register, stored whole (R24). -/
theorem State.writeReg_fourteen (s : State) (v : Word) : s.writeReg 14 v = { s with lr := v } := rfl

/-- B whose condition passes (R161). -/
theorem exec_b_of_passes {c : Cond} {s : State} (hpasses : s.psr.passes c = true) (imm : BitVec 12) :
    exec (.b c imm) s = .next { s with pc := branchTarget s.pc imm } :=
  calc exec (.b c imm) s
      _ = .next (s.setPc (branchTarget s.pc imm)) := exec_pass hpasses
      _ = .next { s with pc := branchTarget s.pc imm } := by rw [State.setPc_branchTarget]

/-- BL whose condition passes: link and target are both computed from `pc0` (R162). -/
theorem exec_bl_of_passes {c : Cond} {s : State} (hpasses : s.psr.passes c = true) (imm : BitVec 12) :
    exec (.bl c imm) s = .next { s with lr := s.pc + 4, pc := branchTarget s.pc imm } :=
  calc exec (.bl c imm) s
      _ = .next ((s.writeReg 14 (s.pc + 4)).setPc (branchTarget s.pc imm)) := exec_pass hpasses
      _ = .next { s with lr := s.pc + 4, pc := branchTarget s.pc imm } := by
        rw [State.setPc_branchTarget, State.writeReg_fourteen]

/-! ## The words of the two rows -/

/-- A word that a pattern matches under the branch rows' mask (R78) has the pattern's class. -/
theorem decodeFields_cls_of_branchRow {w p : Word} (hrow : w &&& 0x0E100000#32 = p) :
    (decodeFields w).cls = classOf (p.extractLsb' 25 3) := by
  have hclassBits : w &&& 0x0E000000#32 = p &&& 0x0E000000#32 := by
    rw [← hrow, BitVec.and_assoc]
    rfl
  rw [decodeFields_cls_of_stubRow hclassBits, extractLsb'_cls_and_stubRowMask]

/-- A word that a pattern matches under the branch rows' mask (R78) has the pattern's S bit. -/
theorem decodeFields_s_of_branchRow {w p : Word} (hrow : w &&& 0x0E100000#32 = p) :
    (decodeFields w).s = p.getLsbD 20 := by
  have hmask : (0x0E100000#32).getLsbD 20 = true := rfl
  rw [← hrow, BitVec.getLsbD_and, hmask, Bool.and_true, decodeFields]

/-- In the branch class the S bit alone selects the instruction (R78). -/
theorem decode_of_cls_eq_branch {w : Word} (hcls : (decodeFields w).cls = .branch) :
    decode w = if (decodeFields w).s = true then .bl (decodeFields w).cond (decodeFields w).imm12
      else .b (decodeFields w).cond (decodeFields w).imm12 := by
  rw [decode, instrOf, hcls]

/-- Every word of B's row is B: the opcode and the register fields have no meaning (R78, R161). -/
theorem decode_eq_b {w : Word} (hrow : w &&& 0x0E100000#32 = 0x06000000#32) :
    decode w = .b (decodeFields w).cond (decodeFields w).imm12 := by
  have hcls : (decodeFields w).cls = .branch := decodeFields_cls_of_branchRow hrow
  have hs : (decodeFields w).s = false := decodeFields_s_of_branchRow hrow
  rw [decode_of_cls_eq_branch hcls, if_neg (Bool.eq_false_iff.mp hs)]

/-- Every word of BL's row is BL: the opcode and the register fields have no meaning (R78, R162). -/
theorem decode_eq_bl {w : Word} (hrow : w &&& 0x0E100000#32 = 0x06100000#32) :
    decode w = .bl (decodeFields w).cond (decodeFields w).imm12 := by
  have hcls : (decodeFields w).cls = .branch := decodeFields_cls_of_branchRow hrow
  have hs : (decodeFields w).s = true := decodeFields_s_of_branchRow hrow
  rw [decode_of_cls_eq_branch hcls, if_pos hs]

/-- Settles O38: the words of B's row decode to B with the word's own condition and immediate, and B goes to its
target. -/
theorem branchCompletes : Obligations.BranchCompletes := by
  refine ⟨fun c imm s hpasses => exec_b_of_passes hpasses imm, fun w s hrow hpasses => ?_⟩
  rw [stepWord, decode_eq_b hrow]
  exact exec_b_of_passes hpasses _

/-- Settles O39: the words of BL's row decode to BL with the word's own condition and immediate, and BL writes the link
and goes to its target. -/
theorem branchWithLinkCompletes : Obligations.BranchWithLinkCompletes := by
  refine ⟨fun c imm s hpasses => exec_bl_of_passes hpasses imm, fun w s hrow hpasses => ?_⟩
  rw [stepWord, decode_eq_bl hrow]
  exact exec_bl_of_passes hpasses _

end Sys2Proof.Machine
end

section
/-! PROOFS. The System family: the words of its rows (R73, R78), the supervisor call's entry (R173, R201) and the no-op
opcodes (R175). -/

namespace Sys2Proof.Machine

/-! ## The words of a System row -/

/-- Bit 27 alone selects the System class: bits 26 and 25 are not read (R73, R170). -/
theorem classOf_eq_system {k : BitVec 3} (htop : k.getLsbD 2 = true) : classOf k = .system := by
  revert k; decide

/-- A word with bit 27 set is decoded by the System class's opcode table (R73, R78). -/
theorem decode_eq_systemInstr {w : Word} (hbit : w.getLsbD 27 = true) : decode w = systemInstr (decodeFields w) := by
  have htop : (w.extractLsb' 25 3).getLsbD 2 = true := by
    rw [BitVec.getLsbD_extractLsb', hbit]
    rfl
  have hsys : (decodeFields w).cls = .system := classOf_eq_system htop
  rw [decode, instrOf, hsys]

/-- The mask of a System row (R78) keeps bit 27. -/
theorem getLsbD_and_systemRowMask (w : Word) : (w &&& 0x09E00000#32).getLsbD 27 = w.getLsbD 27 := by
  have hone : (0x09E00000#32).getLsbD 27 = true := by decide
  rw [BitVec.getLsbD_and, hone, Bool.and_true]

/-- The mask of a System row (R78) keeps the opcode bits. -/
theorem extractLsb'_opcode_and_systemRowMask (w : Word) :
    (w &&& 0x09E00000#32).extractLsb' 21 4 = w.extractLsb' 21 4 := by
  have hones : (0x09E00000#32).extractLsb' 21 4 = BitVec.allOnes 4 := by decide
  rw [BitVec.extractLsb'_and, hones, BitVec.and_allOnes]

/-- A word that a System pattern matches under the rows' mask (R78) is decoded by the System table. -/
theorem decode_of_systemRow {w p : Word} (hrow : w &&& 0x09E00000#32 = p) (hbit : p.getLsbD 27 = true) :
    decode w = systemInstr (decodeFields w) := by
  rw [← hrow, getLsbD_and_systemRowMask] at hbit
  exact decode_eq_systemInstr hbit

/-- A word that a pattern matches under the System rows' mask (R78) has the pattern's opcode. -/
theorem decodeFields_opcode_of_systemRow {w p : Word} (hrow : w &&& 0x09E00000#32 = p) :
    (decodeFields w).opcode = p.extractLsb' 21 4 := by
  rw [← hrow, extractLsb'_opcode_and_systemRowMask, decodeFields]

/-! ## The supervisor call -/

/-- The mask of VBAR is the complement of its low 10 bits (R36). -/
theorem align1K_eq_and_not (w : Word) : align1K w = w &&& ~~~ 0x3FF#32 := rfl

/-- Offset 0x08 of the vector table is a word's address, so the alignment of `pc` clears nothing there (R202). -/
theorem align4_align1K_add_svcOffset (w : Word) : align4 (align1K w + svcOffset) = align1K w + svcOffset := by
  apply align4_of_aligned
  have hoff : svcOffset.toNat = 8 := rfl
  rw [BitVec.toNat_add, align1K_toNat, hoff]
  omega

/-- SVC whose condition passes takes the exception at offset 0x08, where no alignment is needed (R173, R201). -/
theorem exec_svc_of_passes {c : Cond} {s : State} (hpasses : s.psr.passes c = true) :
    exec (.svc c) s = .next
      { s with
        sys := { s.sys with elr := s.pc, spsr := encodePsr s.psr }
        psr := { s.psr with p := true }
        pc := align1K s.sys.vbar + svcOffset } :=
  calc exec (.svc c) s
      _ = .next (s.enterException svcOffset) := exec_pass hpasses
      _ = _ := by rw [State.enterException_eq, align4_align1K_add_svcOffset]

/-- The System table gives opcode 0x2 the supervisor call (R78). -/
theorem systemInstr_eq_svc {d : Decoded} (hop : d.opcode = 0x2#4) : systemInstr d = .svc d.cond := by
  simp only [systemInstr, hop]

/-- Every word of SVC's row is SVC: no field but the condition has a meaning (R75, R78). -/
theorem decode_eq_svc {w : Word} (hrow : w &&& 0x09E00000#32 = 0x08400000#32) :
    decode w = .svc (decodeFields w).cond := by
  have hop : (decodeFields w).opcode = 0x2#4 := decodeFields_opcode_of_systemRow hrow
  rw [decode_of_systemRow hrow rfl, systemInstr_eq_svc hop]

/-- Settles O45: the entry is one record update at any offset, and SVC is the entry at offset 0x08. -/
theorem supervisorCallEntersException : Obligations.SupervisorCallEntersException := by
  refine ⟨fun s off => ?_, fun c s hpasses => ?_, fun w hrow => decode_eq_svc hrow⟩
  · rw [← align1K_eq_and_not]
    exact State.enterException_eq s off
  · rw [← align1K_eq_and_not]
    exact exec_svc_of_passes hpasses

/-! ## The no-op opcodes -/

/-- The instructions of System opcodes 0x4 to 0xF under one condition (R175). -/
def systemNoOpInstrs (c : Cond) : List Instr :=
  [.sysNop4 c, .sysNop5 c, .sysNop6 c, .sysNop7 c, .sysNop8 c, .sysNop9 c, .sysNopA c, .sysNopB c, .sysNopC c,
    .sysNopD c, .sysNopE c, .sysNopF c]

/-- The effect of a System no-op is the advance (R175). -/
theorem effect_of_mem_systemNoOpInstrs {c : Cond} {i : Instr} (hi : i ∈ systemNoOpInstrs c) (s : State) :
    effect i s = s.advance := by
  simp only [systemNoOpInstrs, List.mem_cons, List.not_mem_nil, or_false] at hi
  rcases hi with rfl | rfl | rfl | rfl | rfl | rfl | rfl | rfl | rfl | rfl | rfl | rfl <;> rfl

/-- A System no-op only advances, whatever its condition (R175). -/
theorem exec_of_mem_systemNoOpInstrs {c : Cond} {i : Instr} {s : State} (hi : i ∈ systemNoOpInstrs c)
    (haligned : s.PcAligned) : exec i s = .next { s with pc := s.pc + 4 } :=
  exec_of_effect_eq_advance haligned (effect_of_mem_systemNoOpInstrs hi s)

/-- The System table gives every opcode after ERET's a no-op, under the record's own condition (R78, R175). -/
theorem systemInstr_mem_systemNoOpInstrs {d : Decoded} (hop : 0x3#4 < d.opcode) :
    systemInstr d ∈ systemNoOpInstrs d.cond := by
  unfold systemInstr
  split
  case h_1 h | h_2 h | h_3 h | h_4 h =>
    rw [h] at hop
    exact absurd hop (by decide)
  all_goals simp [systemNoOpInstrs]

/-- The patterns of the rows of System opcodes 0x4 to 0xF (R78). -/
def systemNoOpPatterns : List Word :=
  [0x08800000#32, 0x08A00000#32, 0x08C00000#32, 0x08E00000#32, 0x09000000#32, 0x09200000#32, 0x09400000#32,
    0x09600000#32, 0x09800000#32, 0x09A00000#32, 0x09C00000#32, 0x09E00000#32]

/-- Each of the twelve patterns holds bit 27 and an opcode after ERET's. -/
theorem systemNoOpPatterns_fields :
    ∀ p ∈ systemNoOpPatterns, p.getLsbD 27 = true ∧ 0x3#4 < p.extractLsb' 21 4 := by
  simp [systemNoOpPatterns]

/-- A word of one of the twelve rows decodes to a System no-op under the word's own condition. -/
theorem decode_mem_systemNoOpInstrs {w : Word} (hrow : w &&& 0x09E00000#32 ∈ systemNoOpPatterns) :
    decode w ∈ systemNoOpInstrs (decodeFields w).cond := by
  obtain ⟨hbit, hop⟩ := systemNoOpPatterns_fields _ hrow
  rw [← decodeFields_opcode_of_systemRow rfl] at hop
  rw [decode_of_systemRow rfl hbit]
  exact systemInstr_mem_systemNoOpInstrs hop

/-- Settles O49: the words of the twelve rows decode to the twelve instructions, and each of these only advances. -/
theorem systemNoOpsOnlyAdvance : Obligations.SystemNoOpsOnlyAdvance :=
  ⟨fun _ _ _ hi haligned => exec_of_mem_systemNoOpInstrs hi haligned,
   fun _ _ hrow haligned => exec_of_mem_systemNoOpInstrs (decode_mem_systemNoOpInstrs hrow) haligned⟩

end Sys2Proof.Machine
end

section
/-! PROOFS. The exceptions' family: how the mode changes (R213). -/

namespace Sys2Proof.Machine

/-! ## The writers of P -/

/-- Reset leaves the status word of R230, which is privileged. -/
@[simp] theorem hostReset_psr (s : State) : (hostReset s).psr = Psr.reset := rfl

/-- The privilege of a decoded status word is its bit 0 (R32). -/
@[simp] theorem decodePsr_p (w : Word) : (decodePsr w).p = w.getLsbD 0 := by rw [decodePsr_eq]

/-- SVC enters privileged mode (R201). -/
theorem effect_svc_psr_p (c : Cond) (s : State) : (effect (.svc c) s).psr.p = true := by
  rw [effect, State.enterException_psr]

/-- MSR takes the mode from bit 0 of its source (R172). -/
theorem effect_msr_psr_p (c : Cond) (rn : Nat) (s : State) :
    (effect (.msr c rn) s).psr.p = (s.readReg rn).getLsbD 0 := by
  rw [effect, State.advance_psr, State.setPsr_psr, decodePsr_p]

/-- ERET takes the mode from bit 0 of SPSR (R207). -/
theorem effect_eret_psr_p (c : Cond) (s : State) : (effect (.eret c) s).psr.p = s.sys.spsr.getLsbD 0 := by
  rw [effect, State.returnFromException_psr, decodePsr_p]

/-! ## The instructions that keep P -/

/-- Only SVC, MSR and ERET stand in R30's row of P. -/
theorem mayWritePrivilege_eq_false {i : Instr} (hsvc : ∀ c, i ≠ .svc c) (hmsr : ∀ c rn, i ≠ .msr c rn)
    (heret : ∀ c, i ≠ .eret c) : mayWritePrivilege i = false := by
  unfold mayWritePrivilege
  split
  case h_1 c => exact absurd rfl (hsvc c)
  case h_2 c rn => exact absurd rfl (hmsr c rn)
  case h_3 c => exact absurd rfl (heret c)
  case h_4 => rfl

/-- An instruction outside R30's row of P keeps the mode: the data instructions and the comparisons write at most
arithmetic flags, and the others no status word at all. -/
theorem effect_psr_p_of_not_mayWritePrivilege {i : Instr} (hkeeps : mayWritePrivilege i = false) (s : State) :
    (effect i s).psr.p = s.psr.p := by
  cases i with
  | svc | msr | eret => cases hkeeps
  | add => rw [effect, dataEffect_psr, flagsIf_p, Psr.addFlags_p, ite_self]
  | sub => rw [effect, dataEffect_psr, flagsIf_p, Psr.subFlags_p, ite_self]
  | and | orr | eor | mov | mvn => rw [effect, dataEffect_psr, flagsIf_p, Psr.logicFlags_p, ite_self]
  | tst => rw [effect, State.advance_psr, State.setPsr_psr, Psr.testFlags_p]
  | cmp => rw [effect, State.advance_psr, State.setPsr_psr, Psr.subFlags_p]
  | b => rw [effect, State.setPc_psr]
  | bl => rw [effect, State.setPc_psr, State.writeReg_psr]
  | mrs => rw [effect, dataEffect_psr]
  | _ => exact congrArg Psr.p (State.advance_psr s)

/-- Settles O18: by the condition, then by the three writers of P against all other instructions. -/
theorem modeChangesOnlyAsListed : Obligations.ModeChangesOnlyAsListed := by
  refine ⟨fun s => congrArg Psr.p (hostReset_psr s), fun s off => congrArg Psr.p (s.enterException_psr off),
    fun i s t hnext => ?_⟩
  rcases exec_next hnext with ⟨hpasses, rfl⟩ | ⟨hfails, rfl⟩
  · rw [if_pos hpasses]
    split
    case h_1 c => exact effect_svc_psr_p c s
    case h_2 c rn => exact effect_msr_psr_p c rn s
    case h_3 c => exact effect_eret_psr_p c s
    case h_4 hsvc hmsr heret =>
      exact effect_psr_p_of_not_mayWritePrivilege (mayWritePrivilege_eq_false hsvc hmsr heret) s
  · rw [if_neg (Bool.eq_false_iff.mp hfails), State.advance_psr]

end Sys2Proof.Machine
end

section
/-! PROOFS. The reset family: what reset leaves (R230) and what it keeps (R235). -/

namespace Sys2Proof.Machine

/-! ## The reset vector -/

/-- The reset vector, computed from the cleared VBAR, is address 0 (R231, R233). -/
theorem align4_reset_vbar_add_resetOffset : align4 (SysRegs.reset.vbar + resetOffset) = 0 := by decide

/-- Reset forgets everything of the state it starts from but the image (R230, R235). -/
theorem hostReset_eq (s : State) : hostReset s = { State.reset with imem := s.imem } :=
  congrArg (fun target => { State.reset with imem := s.imem, pc := target }) align4_reset_vbar_add_resetOffset

/-! ## The registers after reset -/

/-- The indices below 13 read the general-purpose registers (R23). -/
theorem State.readReg_of_lt (s : State) {i : Nat} (h : i < 13) : s.readReg i = s.r[i] := dif_pos h

/-- After reset every index reads zero: the sixteen registers by R230, every other index by R23. -/
theorem reset_readReg (n : Nat) : State.reset.readReg n = 0 := by
  have hrange : n < 13 ∨ n = 13 ∨ n = 14 ∨ n = 15 ∨ 16 ≤ n := by omega
  rcases hrange with hgeneral | rfl | rfl | rfl | hinvalid
  · calc State.reset.readReg n = (Vector.replicate 13 (0 : Word))[n] := State.reset.readReg_of_lt hgeneral
      _ = 0 := Vector.getElem_replicate hgeneral
  · exact State.reset.readReg_sp
  · exact State.reset.readReg_lr
  · exact State.reset.readReg_pc
  · exact State.reset.readReg_invalid hinvalid

/-! ## The status word after reset -/

/-- The status word after reset packs to bit 0 alone, the place of P (R31, R230). -/
theorem encodePsr_reset : encodePsr Psr.reset = 0x00000001#32 := by decide

/-- Settles O50: `pc` is the only value reset computes; the other fields are R230's table. -/
theorem resetLeavesTheStatedValues : Obligations.ResetLeavesTheStatedValues :=
  ⟨hostReset_eq, fun n _ => reset_readReg n, rfl, rfl, encodePsr_reset, rfl⟩

end Sys2Proof.Machine
end

section
/-! PROOFS. The encoder against the decoder: the round trip of every instruction (R84), the well-formedness of every
decoded one (R77), and the words of the opcode map's rows (R75, R78). -/

namespace Sys2Proof
open Sys2Proof.Machine

/-! ## From an instruction to its word and back -/

/-- The decoded record of an assembled word: every field is the one the assembler was given (R71, R84). -/
theorem decode_encodeFields (cond : BitVec 4) (cls : BitVec 3) (op : BitVec 4) (f : Bool) (rn rd : BitVec 4)
    (low : BitVec 12) :
    decode (encodeFields cond cls op f rn rd low) =
      instrOf { raw := encodeFields cond cls op f rn rd low, cond := condOfCode cond, cls := classOf cls, opcode := op,
                s := f, rn := rn.toNat, rd := rd.toNat, rm := (low.extractLsb' 0 4).toNat, imm12 := low } := by
  simp only [decode, decodeFields, encodeFields_cond, encodeFields_cls, encodeFields_opcode, encodeFields_s,
    encodeFields_rn, encodeFields_rd, encodeFields_rm, encodeFields_low]

/-- Settles O1: the row's class and opcode select the constructor again, and every operand it keeps is read back: a
register index because it is well formed, a condition by its code. -/
theorem decodeEncodeRoundTrip : Obligations.DecodeEncodeRoundTrip := by
  intro i hwf
  cases i with
  | add c f rd rn imm | sub c f rd rn imm =>
    obtain ⟨hrd, hrn⟩ := Bool.and_eq_true_iff.mp hwf
    rw [encode, decode_encodeFields, condOfCode_code, regField_toNat hrd, regField_toNat hrn]
    rfl
  | and c f rd rn rm | orr c f rd rn rm | eor c f rd rn rm =>
    obtain ⟨hrdrn, hrm⟩ := Bool.and_eq_true_iff.mp hwf
    obtain ⟨hrd, hrn⟩ := Bool.and_eq_true_iff.mp hrdrn
    rw [encode, decode_encodeFields, condOfCode_code, regField_toNat hrd, regField_toNat hrn, rmField_toNat hrm]
    rfl
  | mvn c f rd rm =>
    obtain ⟨hrd, hrm⟩ := Bool.and_eq_true_iff.mp hwf
    rw [encode, decode_encodeFields, condOfCode_code, regField_toNat hrd, rmField_toNat hrm]
    rfl
  | tst c rn rm | cmp c rn rm =>
    obtain ⟨hrn, hrm⟩ := Bool.and_eq_true_iff.mp hwf
    rw [encode, decode_encodeFields, condOfCode_code, regField_toNat hrn, rmField_toNat hrm]
    rfl
  | mov c f r imm | mrs c r | msr c r =>
    rw [encode, decode_encodeFields, condOfCode_code, regField_toNat hwf]
    rfl
  | _ =>
    rw [encode, decode_encodeFields, condOfCode_code]
    rfl

/-! ## The decoded instruction is well formed -/

/-- The ALU's opcode table takes its indices from the record (R75). -/
theorem wellFormed_aluInstr {d : Decoded} (hrd : regOk d.rd = true) (hrn : regOk d.rn = true)
    (hrm : regOk d.rm = true) : WellFormed (aluInstr d) := by
  unfold aluInstr
  split <;> simp [WellFormed, Instr.wellFormed, hrd, hrn, hrm]

/-- The System opcode table takes its indices from the record (R75). -/
theorem wellFormed_systemInstr {d : Decoded} (hrd : regOk d.rd = true) (hrn : regOk d.rn = true) :
    WellFormed (systemInstr d) := by
  unfold systemInstr
  split <;> simp [WellFormed, Instr.wellFormed, hrd, hrn]

/-- Settles O6, class by class: the stub and branch classes name no register. -/
theorem everyWordDecodesWellFormed : Obligations.EveryWordDecodesWellFormed := by
  intro w
  rw [decode, instrOf]
  cases (decodeFields w).cls with
  | alu => exact wellFormed_aluInstr (regOk_rd w) (regOk_rn w) (regOk_rm w)
  | system => exact wellFormed_systemInstr (regOk_rd w) (regOk_rn w)
  | mulDiv | loadStore => rfl
  | branch => cases (decodeFields w).s <;> rfl

/-- Settles O7: each word is evaluated. -/
theorem sampleWordsDecode : Obligations.SampleWordsDecode := by
  unfold Obligations.SampleWordsDecode
  decide
end Sys2Proof
end

section
/-! PROOFS. The words of the opcode map's rows: each word lies in the row of its instruction and in no other (R78), and
the row's ignored bits are the ones the decoder drops (R75). -/

namespace Sys2Proof
open Sys2Proof.Machine

/-! ## Words and their fields -/

/-- A word is put together again from its fields (R70, R84). -/
theorem encodeFields_extractLsb' (w : Word) :
    encodeFields (w.extractLsb' 28 4) (w.extractLsb' 25 3) (w.extractLsb' 21 4) (w.getLsbD 20) (w.extractLsb' 16 4)
      (w.extractLsb' 12 4) (w.extractLsb' 0 12) = w := by
  apply BitVec.eq_of_getLsbD_eq
  intro i hi
  interval_cases i <;> simp [encodeFields]

/-- Masking a word masks its fields. -/
theorem and_eq_encodeFields (w m : Word) :
    w &&& m = encodeFields (w.extractLsb' 28 4 &&& m.extractLsb' 28 4) (w.extractLsb' 25 3 &&& m.extractLsb' 25 3)
      (w.extractLsb' 21 4 &&& m.extractLsb' 21 4) (w.getLsbD 20 && m.getLsbD 20)
      (w.extractLsb' 16 4 &&& m.extractLsb' 16 4) (w.extractLsb' 12 4 &&& m.extractLsb' 12 4)
      (w.extractLsb' 0 12 &&& m.extractLsb' 0 12) := by
  simp only [← BitVec.extractLsb'_and, ← BitVec.getLsbD_and, encodeFields_extractLsb']

/-- A mask that is ones over a field keeps the field. -/
theorem extractLsb'_and_of_ones {m : Word} {k n : Nat} (hones : m.extractLsb' k n = BitVec.allOnes n) (w : Word) :
    (w &&& m).extractLsb' k n = w.extractLsb' k n := by
  rw [BitVec.extractLsb'_and, hones, BitVec.and_allOnes]

/-- The sixteen opcodes. -/
theorem opcode_cases (k : BitVec 4) :
    k = 0x0#4 ∨ k = 0x1#4 ∨ k = 0x2#4 ∨ k = 0x3#4 ∨ k = 0x4#4 ∨ k = 0x5#4 ∨ k = 0x6#4 ∨ k = 0x7#4 ∨
    k = 0x8#4 ∨ k = 0x9#4 ∨ k = 0xA#4 ∨ k = 0xB#4 ∨ k = 0xC#4 ∨ k = 0xD#4 ∨ k = 0xE#4 ∨ k = 0xF#4 := by
  revert k; decide

/-! ## The bits that an instruction does not keep -/

/-- The bits R75 lists as ignored, by instruction. -/
def ignoredBits : Instr → Word
  | .add .. | .sub .. => 0x00000000#32
  | .and .. | .orr .. | .eor .. => 0x00000FF0#32
  | .mov .. => 0x000F0000#32
  | .mvn .. => 0x000F0FF0#32
  | .tst .. | .cmp .. => 0x0010FFF0#32
  | .aluUndef9 _ | .aluUndefA _ | .aluUndefB _ | .aluUndefC _ | .aluUndefD _ | .aluUndefE _ | .aluUndefF _ =>
    0x001FFFFF#32
  | .muldiv _ | .ldst _ => 0x01FFFFFF#32
  | .b .. | .bl .. => 0x01EFF000#32
  | .mrs .. => 0x061F0FFF#32
  | .msr .. => 0x0610FFFF#32
  | _ => 0x061FFFFF#32

/-! ### The fields of a decoded record, back as the encoder writes them -/

/-- The condition's code is its field. -/
theorem code_cond_decodeFields (w : Word) : (decodeFields w).cond.code = w.extractLsb' 28 4 := code_condOfCode _

/-- The source-A index goes back into its field. -/
theorem regField_rn_decodeFields (w : Word) : regField (decodeFields w).rn = w.extractLsb' 16 4 :=
  BitVec.eq_of_toNat_eq (regField_toNat (regOk_rn w))

/-- The destination index goes back into its field. -/
theorem regField_rd_decodeFields (w : Word) : regField (decodeFields w).rd = w.extractLsb' 12 4 :=
  BitVec.eq_of_toNat_eq (regField_toNat (regOk_rd w))

/-- The source-B index is the low nibble of the low 12 bits. -/
theorem rmField_rm_decodeFields (w : Word) : rmField (decodeFields w).rm = w.extractLsb' 0 12 &&& 0x00F#12 := by
  have hnibble : regField (decodeFields w).rm = w.extractLsb' 0 4 :=
    BitVec.eq_of_toNat_eq (regField_toNat (regOk_rm w))
  rw [rmField, hnibble]
  apply BitVec.eq_of_getLsbD_eq
  intro i hi
  interval_cases i <;> simp

/-- A mask of ones keeps a 4-bit field. -/
theorem and_fifteen (x : BitVec 4) : x &&& 0xF#4 = x := BitVec.and_allOnes

/-- A mask of ones keeps the low 12 bits. -/
theorem and_ones_low12 (x : BitVec 12) : x &&& 0xFFF#12 = x := BitVec.and_allOnes

/-! ### Encoding again, class by class -/

/-- A word of the ALU class, encoded again, loses the bits its instruction ignores. -/
theorem encode_aluInstr {w : Word} (hcls : w.extractLsb' 25 3 = 0#3) :
    encode (aluInstr (decodeFields w)) = w &&& ~~~ ignoredBits (aluInstr (decodeFields w)) := by
  have hop : (decodeFields w).opcode = w.extractLsb' 21 4 := rfl
  have hs : (decodeFields w).s = w.getLsbD 20 := rfl
  have himm : (decodeFields w).imm12 = w.extractLsb' 0 12 := rfl
  rw [and_eq_encodeFields, hcls]
  rcases opcode_cases (w.extractLsb' 21 4) with
    h | h | h | h | h | h | h | h | h | h | h | h | h | h | h | h <;>
    simp [aluInstr, hop, h, hs, himm, encode, ignoredBits, code_cond_decodeFields, regField_rn_decodeFields,
      regField_rd_decodeFields, rmField_rm_decodeFields, and_fifteen, and_ones_low12]

/-- A word of the System class, encoded again, loses the bits its instruction ignores, bits 26 and 25 among them. -/
theorem encode_systemInstr {w : Word} (hbit : w.extractLsb' 25 3 &&& 4#3 = 4#3) :
    encode (systemInstr (decodeFields w)) = w &&& ~~~ ignoredBits (systemInstr (decodeFields w)) := by
  have hop : (decodeFields w).opcode = w.extractLsb' 21 4 := rfl
  rw [and_eq_encodeFields]
  rcases opcode_cases (w.extractLsb' 21 4) with
    h | h | h | h | h | h | h | h | h | h | h | h | h | h | h | h <;>
    simp [systemInstr, hop, h, hbit, encode, ignoredBits, code_cond_decodeFields, regField_rn_decodeFields,
      regField_rd_decodeFields, and_fifteen]

/-- The five classes by the class bits: the System class is bit 27 (R73). -/
theorem classBits_cases (k : BitVec 3) :
    k = 0#3 ∧ classOf k = .alu ∨ k = 1#3 ∧ classOf k = .mulDiv ∨ k = 2#3 ∧ classOf k = .loadStore ∨
    k = 3#3 ∧ classOf k = .branch ∨ k &&& 4#3 = 4#3 ∧ classOf k = .system := by
  revert k; decide

/-- A word of the multiply/divide class, encoded again, keeps its condition and its class. -/
theorem encode_muldiv {w : Word} (hcls : w.extractLsb' 25 3 = 1#3) :
    encode (.muldiv (decodeFields w).cond) = w &&& ~~~ 0x01FFFFFF#32 := by
  simp [encode, and_eq_encodeFields, hcls, code_cond_decodeFields, and_fifteen]

/-- The same for the load/store class. -/
theorem encode_ldst {w : Word} (hcls : w.extractLsb' 25 3 = 2#3) :
    encode (.ldst (decodeFields w).cond) = w &&& ~~~ 0x01FFFFFF#32 := by
  simp [encode, and_eq_encodeFields, hcls, code_cond_decodeFields, and_fifteen]

/-- A word of B's row, encoded again, loses its opcode and register fields. -/
theorem encode_b {w : Word} (hcls : w.extractLsb' 25 3 = 3#3) (hlink : w.getLsbD 20 = false) :
    encode (.b (decodeFields w).cond (decodeFields w).imm12) = w &&& ~~~ 0x01EFF000#32 := by
  have himm : (decodeFields w).imm12 = w.extractLsb' 0 12 := rfl
  rw [and_eq_encodeFields, hcls, hlink, encode, code_cond_decodeFields, himm]
  simp [and_fifteen, and_ones_low12]

/-- A word of BL's row, encoded again, loses its opcode and register fields. -/
theorem encode_bl {w : Word} (hcls : w.extractLsb' 25 3 = 3#3) (hlink : w.getLsbD 20 = true) :
    encode (.bl (decodeFields w).cond (decodeFields w).imm12) = w &&& ~~~ 0x01EFF000#32 := by
  have himm : (decodeFields w).imm12 = w.extractLsb' 0 12 := rfl
  rw [and_eq_encodeFields, hcls, hlink, encode, code_cond_decodeFields, himm]
  simp [and_fifteen, and_ones_low12]

/-- Decoding a word and encoding it again clears the bits the instruction ignores and no other (R75, R84). -/
theorem encode_decode (w : Word) : encode (decode w) = w &&& ~~~ ignoredBits (decode w) := by
  have hcls : (decodeFields w).cls = classOf (w.extractLsb' 25 3) := rfl
  rw [decode, instrOf, hcls]
  rcases classBits_cases (w.extractLsb' 25 3) with
    ⟨hbits, hclass⟩ | ⟨hbits, hclass⟩ | ⟨hbits, hclass⟩ | ⟨hbits, hclass⟩ | ⟨hbits, hclass⟩ <;> rw [hclass]
  · exact encode_aluInstr hbits
  · exact encode_muldiv hbits
  · exact encode_ldst hbits
  · cases hlink : (decodeFields w).s
    · exact encode_b hbits hlink
    · exact encode_bl hbits hlink
  · exact encode_systemInstr hbits

/-! ## The rows of the opcode map -/

/-- The class, the opcode and the S bit of a word, in their places: bits 27 to 20. -/
def selector (w : Word) : Word := w &&& 0x0FF00000#32

/-- The word whose bits 27 to 20 are given and whose other bits are 0. -/
def selectorWord (k : BitVec 8) : Word := k.setWidth 32 <<< 20

/-- Eight bits make up the selector. -/
theorem selector_eq (w : Word) : selector w = selectorWord (w.extractLsb' 20 8) := by
  apply BitVec.eq_of_getLsbD_eq
  intro i hi
  interval_cases i <;> simp [selector, selectorWord]

/-- No row fixes a bit outside the selector. -/
theorem selector_and_mask : ∀ row ∈ opcodeMap, 0x0FF00000#32 &&& row.mask = row.mask := by decide

/-- Whether a word belongs to a row is decided by its selector. -/
theorem has_selector {row : OpcodeRow} (hrow : row ∈ opcodeMap) (w : Word) : row.has (selector w) = row.has w := by
  rw [OpcodeRow.has, OpcodeRow.has, selector, BitVec.and_assoc, selector_and_mask row hrow]

/-- Two records of one class, opcode and S bit belong to one row: one mnemonic and the same ignored bits. -/
theorem instrOf_sameRow {d d' : Decoded} (hcls : d.cls = d'.cls) (hop : d.opcode = d'.opcode) (hs : d.s = d'.s) :
    (instrOf d).mnemonic = (instrOf d').mnemonic ∧ ignoredBits (instrOf d) = ignoredBits (instrOf d') := by
  rw [instrOf, instrOf, hcls, hs]
  cases d'.cls with
  | alu =>
    rw [aluInstr, aluInstr, hop]
    rcases opcode_cases d'.opcode with h | h | h | h | h | h | h | h | h | h | h | h | h | h | h | h <;>
      rw [h] <;> exact ⟨rfl, rfl⟩
  | system =>
    rw [systemInstr, systemInstr, hop]
    rcases opcode_cases d'.opcode with h | h | h | h | h | h | h | h | h | h | h | h | h | h | h | h <;>
      rw [h] <;> exact ⟨rfl, rfl⟩
  | branch => cases d'.s <;> exact ⟨rfl, rfl⟩
  | mulDiv | loadStore => exact ⟨rfl, rfl⟩

/-- The row of the decoded instruction is decided by the selector. -/
theorem decode_selector_sameRow (w : Word) :
    (decode (selector w)).mnemonic = (decode w).mnemonic ∧
      ignoredBits (decode (selector w)) = ignoredBits (decode w) := by
  have hcls : (selector w).extractLsb' 25 3 = w.extractLsb' 25 3 := extractLsb'_and_of_ones (by decide) w
  have hop : (selector w).extractLsb' 21 4 = w.extractLsb' 21 4 := extractLsb'_and_of_ones (by decide) w
  have hs : (selector w).getLsbD 20 = w.getLsbD 20 := by simp [selector]
  exact instrOf_sameRow (congrArg classOf hcls) hop hs

/-- Each of the 256 selectors belongs to one row of the map, the row of its instruction, with the instruction's ignored
bits. -/
theorem opcodeMap_filter_selectorWord (k : BitVec 8) :
    (opcodeMap.filter (fun row => row.has (selectorWord k))).map (fun row => (row.mnemonic, row.ignored)) =
      [((decode (selectorWord k)).mnemonic, ignoredBits (decode (selectorWord k)))] := by
  revert k
  decide

/-- A word belongs to one row of the map, the row of its instruction, with the instruction's ignored bits. -/
theorem opcodeMap_filter_has (w : Word) :
    (opcodeMap.filter (fun row => row.has w)).map (fun row => (row.mnemonic, row.ignored)) =
      [((decode w).mnemonic, ignoredBits (decode w))] := by
  obtain ⟨hmnemonic, hignored⟩ := decode_selector_sameRow w
  have hfilter : opcodeMap.filter (fun row => row.has w) = opcodeMap.filter (fun row => row.has (selector w)) :=
    List.filter_congr fun row hrow => (has_selector hrow w).symm
  rw [hfilter, ← hmnemonic, ← hignored, selector_eq, opcodeMap_filter_selectorWord]

/-- Settles O3: the mnemonics of `opcodeMap_filter_has`, and the masks row by row. -/
theorem opcodeRowsAreDisjointAndCover : Obligations.OpcodeRowsAreDisjointAndCover := by
  refine ⟨fun w => ?_, by decide⟩
  have hone := congrArg (List.map Prod.fst) (opcodeMap_filter_has w)
  rwa [List.map_map] at hone

/-- Settles O2: a row that holds the word is the one row of `opcodeMap_filter_has`. -/
theorem encodeDecodeClearsIgnoredBits : Obligations.EncodeDecodeClearsIgnoredBits := by
  intro row hrow w hhas
  have hmem : (row.mnemonic, row.ignored) ∈
      (opcodeMap.filter (fun row => row.has w)).map (fun row => (row.mnemonic, row.ignored)) :=
    List.mem_map_of_mem (List.mem_filter.mpr ⟨hrow, hhas⟩)
  rw [opcodeMap_filter_has, List.mem_singleton, Prod.mk.injEq] at hmem
  obtain ⟨hmnemonic, hignored⟩ := hmem
  exact ⟨hmnemonic.symm, hignored ▸ encode_decode w⟩

/-! ## The four System encodings -/

/-- The System opcode table reads the opcode, the condition, the destination and source A, and no class bit (R170). -/
theorem systemInstr_congr {d d' : Decoded} (hop : d.opcode = d'.opcode) (hcond : d.cond = d'.cond)
    (hrd : d.rd = d'.rd) (hrn : d.rn = d'.rn) : systemInstr d = systemInstr d' := by
  simp only [systemInstr, hop, hcond, hrd, hrn]

/-- Words of the System class that differ only in bits 26 and 25 decode alike (R170). -/
theorem decode_eq_of_system_encodings {w w' : Word} (hw : w.getLsbD 27 = true) (hw' : w'.getLsbD 27 = true)
    (hrest : w &&& 0xF9FFFFFF#32 = w' &&& 0xF9FFFFFF#32) : decode w = decode w' := by
  have hfield : ∀ {k n : Nat}, (0xF9FFFFFF#32).extractLsb' k n = BitVec.allOnes n →
      w.extractLsb' k n = w'.extractLsb' k n := fun hones => by
    rw [← extractLsb'_and_of_ones hones w, hrest, extractLsb'_and_of_ones hones w']
  rw [Machine.decode_eq_systemInstr hw, Machine.decode_eq_systemInstr hw']
  exact systemInstr_congr (hfield (by decide)) (congrArg condOfCode (hfield (by decide)))
    (congrArg BitVec.toNat (hfield (by decide))) (congrArg BitVec.toNat (hfield (by decide)))

/-- The mnemonics of the System class by opcode (R78). -/
def systemMnemonics : List String :=
  ["MRS", "MSR", "SVC", "ERET", "SYS_NOP_4", "SYS_NOP_5", "SYS_NOP_6", "SYS_NOP_7", "SYS_NOP_8", "SYS_NOP_9",
    "SYS_NOP_A", "SYS_NOP_B", "SYS_NOP_C", "SYS_NOP_D", "SYS_NOP_E", "SYS_NOP_F"]

/-- The opcode alone selects the mnemonic (R78). -/
theorem systemMnemonics_opcode (d : Decoded) :
    systemMnemonics[d.opcode.toNat]? = some (systemInstr d).mnemonic := by
  rw [systemInstr]
  rcases opcode_cases d.opcode with h | h | h | h | h | h | h | h | h | h | h | h | h | h | h | h <;> rw [h] <;> rfl

/-- Settles O5: no field but bits 26 and 25 tells the four encodings apart, and the System table reads neither. -/
theorem systemClassEncodingsBehaveAlike : Obligations.SystemClassEncodingsBehaveAlike := by
  refine ⟨fun w w' s hw hw' hrest => ?_, fun w hw => ?_⟩
  · have hsame : decode w = decode w' := decode_eq_of_system_encodings hw hw' hrest
    exact ⟨hsame, by rw [stepWord, stepWord, hsame]⟩
  · have hop : (decodeFields w).opcode.toNat = w.toNat / 2 ^ 21 % 16 := toNat_extractLsb'_eq_div_mod w 21 4
    rw [Machine.decode_eq_systemInstr hw, ← systemMnemonics_opcode, hop]
    rfl

end Sys2Proof
end

section
/-! PROOFS. Branch displacements (R160) and branch offset assembly (R85), as arithmetic. -/

namespace Sys2Proof.Machine

/-! ## The displacement -/

/-- The range of a 12-bit immediate. -/
theorem imm12_toInt_bounds (imm : BitVec 12) : -2048 ≤ imm.toInt ∧ imm.toInt ≤ 2047 :=
  ⟨BitVec.le_toInt imm, BitVec.toInt_le⟩

/-- The two stages of R160 are one sign extension. -/
theorem branchDisp_eq (imm : BitVec 12) : branchDisp imm = imm.signExtend 32 <<< 2 := by
  have hstages : (imm.signExtend 16).signExtend 32 = imm.signExtend 32 := by
    apply BitVec.eq_of_toInt_eq
    rw [BitVec.toInt_signExtend_of_le (by decide), BitVec.toInt_signExtend_of_le (by decide),
      BitVec.toInt_signExtend_of_le (by decide)]
  rw [branchDisp, hstages]

/-- The displacement is four times the signed immediate: nothing is shifted out. -/
theorem branchDisp_toInt (imm : BitVec 12) : (branchDisp imm).toInt = 4 * imm.toInt := by
  obtain ⟨hlower, hupper⟩ := imm12_toInt_bounds imm
  have hfour : (BitVec.twoPow 32 2).toInt = 4 := by decide
  rw [branchDisp_eq, BitVec.shiftLeft_eq_mul_twoPow, BitVec.toInt_mul, BitVec.toInt_signExtend_of_le (by decide), hfour,
    Int.bmod_eq_of_le (by omega) (by omega), Int.mul_comm]

/-- A branch goes to `pc0 + 4` plus four times the signed immediate, modulo 2^32. -/
theorem add_branchDisp_toNat (pc0 : Word) (imm : BitVec 12) :
    ((pc0 + 4 + branchDisp imm).toNat : Int) = ((pc0.toNat : Int) + 4 + 4 * imm.toInt) % 2 ^ 32 := by
  have hdisp := branchDisp_toInt imm
  have hfour : (4 : Word).toNat = 4 := rfl
  rw [BitVec.toInt_eq_toNat_cond] at hdisp
  rw [BitVec.toNat_add, BitVec.toNat_add, hfour]
  split at hdisp <;> omega

/-- From an aligned `pc0` the target needs no alignment. -/
theorem branchTarget_of_aligned {pc0 : Word} (haligned : pc0.toNat % 4 = 0) (imm : BitVec 12) :
    branchTarget pc0 imm = pc0 + 4 + branchDisp imm := by
  apply align4_of_aligned
  have hsum := add_branchDisp_toNat pc0 imm
  omega

/-- Settles O40: the bounds are four times those of the immediate. -/
theorem branchDisplacementIsExact : Obligations.BranchDisplacementIsExact := by
  intro imm pc0 haligned
  obtain ⟨hlower, hupper⟩ := imm12_toInt_bounds imm
  have hdisp := branchDisp_toInt imm
  exact ⟨hdisp, by omega, by omega, branchDisp_eq imm, branchTarget_of_aligned haligned imm⟩

/-! ## Offset assembly -/

/-- The assembler gives the immediate whose fourfold is the offset, where there is one (R85). -/
theorem branchImm_eq_some_iff (a target : Word) (imm : BitVec 12) :
    branchImm a target = some imm ↔ (target.toNat : Int) - ((a.toNat : Int) + 4) = 4 * imm.toInt := by
  obtain ⟨hlower, hupper⟩ := imm12_toInt_bounds imm
  rw [branchImm]
  constructor
  · intro hsome
    split at hsome
    · next hwindow =>
      obtain ⟨hmultiple, hmin, hmax⟩ := hwindow
      have himm := congrArg BitVec.toInt (Option.some.inj hsome)
      rw [BitVec.toInt_ofInt_eq_self (by decide) (by omega) (by omega)] at himm
      omega
    · cases hsome
  · intro hoffset
    have hquarter : 4 * imm.toInt / 4 = imm.toInt := by omega
    rw [hoffset, if_pos (by omega), hquarter, BitVec.ofInt_toInt]

/-- Settles O8: assembly gives an immediate exactly when four times it is the offset, and the branch adds just that. -/
theorem branchAssemblyReachesTarget : Obligations.BranchAssemblyReachesTarget := by
  refine ⟨fun a target imm haligned hsome => ?_, fun a imm haligned hmin hmax => ?_⟩
  · have hoffset := (branchImm_eq_some_iff a target imm).mp hsome
    have hsum := add_branchDisp_toNat a imm
    have htarget := target.isLt
    rw [branchTarget_of_aligned haligned]
    apply BitVec.eq_of_toNat_eq
    omega
  · have hsum := add_branchDisp_toNat a imm
    rw [branchImm_eq_some_iff, branchTarget_of_aligned haligned, hsum]
    omega

end Sys2Proof.Machine
end

section
/-! PROOFS. The step: the fetched word (R50, R53), a placed word, and R100's dispatch by class and unit. -/

namespace Sys2Proof.Machine

/-! ## The fetch -/

/-- Settles O9: the decoder of byte strings reads the word that the fetch reads. -/
theorem stepRunsTheDecodedInstruction : Obligations.StepRunsTheDecodedInstruction := by
  intro s i hbytes
  have hdecode : decode s.fetchWord = i := (Prod.mk.inj (Except.ok.inj hbytes)).1
  rw [step_eq, hdecode]

/-- A byte set above the bits of a word adds its multiple. -/
theorem or_shiftLeft_toNat {x : Word} {k : Nat} (hk : k ≤ 24) (hx : x.toNat < 2 ^ k) (b : Byte) :
    (x ||| b.setWidth 32 <<< k).toNat = x.toNat + 2 ^ k * b.toNat := by
  have hb : b.toNat < 2 ^ 8 := b.isLt
  have hfits : b.toNat <<< k < 2 ^ 32 := by
    calc b.toNat <<< k = b.toNat * 2 ^ k := Nat.shiftLeft_eq _ _
      _ < 2 ^ 8 * 2 ^ k := Nat.mul_lt_mul_of_pos_right hb (Nat.two_pow_pos k)
      _ = 2 ^ (8 + k) := (Nat.pow_add 2 8 k).symm
      _ ≤ 2 ^ 32 := Nat.pow_le_pow_right (by decide) (by omega)
  have hbyte : (b.setWidth 32).toNat = b.toNat := by rw [BitVec.toNat_setWidth]; omega
  rw [BitVec.toNat_or, BitVec.toNat_shiftLeft, hbyte, Nat.mod_eq_of_lt hfits, Nat.or_comm,
    ← Nat.shiftLeft_add_eq_or_of_lt hx, Nat.shiftLeft_eq, Nat.mul_comm, Nat.add_comm]

/-- Four bytes in little-endian order are the digits of the word in base 256. -/
theorem wordOfBytes_little_toNat (b0 b1 b2 b3 : Byte) :
    (wordOfBytes .little b0 b1 b2 b3).toNat =
      b0.toNat + 2 ^ 8 * b1.toNat + 2 ^ 16 * b2.toNat + 2 ^ 24 * b3.toNat := by
  have h0 : (b0.setWidth 32).toNat = b0.toNat := by rw [BitVec.toNat_setWidth]; omega
  have h1 := or_shiftLeft_toNat (x := b0.setWidth 32) (k := 8) (by decide) (by omega) b1
  have h2 := or_shiftLeft_toNat (x := b0.setWidth 32 ||| b1.setWidth 32 <<< 8) (k := 16) (by decide) (by omega) b2
  rw [wordOfBytes, or_shiftLeft_toNat (by decide) (by omega), h2, h1, h0]

/-- Settles O10: the chosen byte order is the little-endian one (D7). -/
theorem fetchIsLittleEndian : Obligations.FetchIsLittleEndian :=
  fun _ => wordOfBytes_little_toNat _ _ _ _

/-! ## A placed word -/

/-- Settles O11: the image reads the placed word at `pc`, and its other addresses as before. -/
theorem placedWordIsRunNext : Obligations.PlacedWordIsRunNext := by
  intro s w hwf hw
  have hmod : w % 2 ^ 32 = w := Nat.mod_eq_of_lt hw
  have hplaced : s.withFetchWord 32 w = s.setImem (s.imem.writeWord s.pc (BitVec.ofNat 32 w)) := by
    rw [State.withFetchWord, hmod]
  have hfetch : (s.setImem (s.imem.writeWord s.pc (BitVec.ofNat 32 w))).fetchWord = BitVec.ofNat 32 w :=
    Memory.readWord_writeWord hwf s.pc _
  rw [hplaced]
  refine ⟨by rw [step_eq, hfetch], Memory.wf_writeWord hwf _ _, fun a h0 h1 h2 h3 => ?_, fun n => ?_, rfl, rfl⟩
  · exact Memory.read_writeWord_ne s.imem _ h0 h1 h2 h3
  · exact s.readReg_setImem _ n

/-! ## The orchestrator -/

/-- The ALU's opcode table gives every instruction the record's condition. -/
theorem aluInstr_cond (d : Decoded) : (aluInstr d).cond = d.cond := by
  unfold aluInstr; split <;> rfl

/-- The System opcode table gives every instruction the record's condition. -/
theorem systemInstr_cond (d : Decoded) : (systemInstr d).cond = d.cond := by
  unfold systemInstr; split <;> rfl

/-- An instruction's condition is its record's. -/
theorem instrOf_cond (d : Decoded) : (instrOf d).cond = d.cond := by
  rw [instrOf]
  cases d.cls with
  | alu => exact aluInstr_cond d
  | system => exact systemInstr_cond d
  | branch => cases d.s <;> rfl
  | mulDiv | loadStore => rfl

/-- The ALU unit answers the effect of the ALU table's instruction (R120). -/
theorem aluExecute_eq (d : Decoded) (s : State) : aluExecute d s = .next (effect (aluInstr d) s) := by
  rw [aluExecute, aluInstr]
  rcases opcode_cases d.opcode with h | h | h | h | h | h | h | h | h | h | h | h | h | h | h | h <;> rw [h] <;> rfl

/-- The system unit answers the effect of the System table's instruction (R170). -/
theorem systemExecute_eq (d : Decoded) (s : State) : systemExecute d s = .next (effect (systemInstr d) s) := by
  rw [systemExecute, systemInstr]
  rcases opcode_cases d.opcode with h | h | h | h | h | h | h | h | h | h | h | h | h | h | h | h <;> rw [h] <;> rfl

/-- The branch unit answers the effect of BL when S asks for the link, and of B when it does not (R160). -/
theorem branchExecute_eq (d : Decoded) (s : State) :
    branchExecute d s = .next (effect (if d.s then .bl d.cond d.imm12 else .b d.cond d.imm12) s) := by
  rw [branchExecute]
  cases d.s <;> rfl

/-- Settles O12: both readings judge the same condition, and each unit answers the effect of its class's instruction. -/
theorem execAgreesWithTheOrchestrator : Obligations.ExecAgreesWithTheOrchestrator := by
  intro w s
  rw [stepWord, decode, exec_eq, instrOf_cond, orchestrate, ← Psr.passes]
  cases s.psr.passes (decodeFields w).cond with
  | false => rfl
  | true =>
    rw [instrOf]
    cases (decodeFields w).cls with
    | alu => exact (aluExecute_eq _ s).symm
    | system => exact (systemExecute_eq _ s).symm
    | branch => exact (branchExecute_eq _ s).symm
    | mulDiv | loadStore => rfl

end Sys2Proof.Machine
end

section
/-! PROOFS. What one instruction's effect does to `pc`, the image, the system registers, the registers and the status
word, said once for all instructions (R26 to R30), and what follows for steps and runs. -/

namespace Sys2Proof.Machine

/-! ## The program counter -/

/-- The next `pc` of an instruction whose condition passed (R27). -/
def effectPc (i : Instr) (s : State) : Word :=
  match i with
  | .b _ imm | .bl _ imm => branchTarget s.pc imm
  | .svc _ => align4 (align1K s.sys.vbar + svcOffset)
  | .eret _ => align4 s.sys.elr
  | _ => align4 (s.pc + 4)

/-- The effect goes to that `pc`; a branch target's second alignment clears nothing. -/
theorem effect_pc (i : Instr) (s : State) : (effect i s).pc = effectPc i s := by
  cases i with
  | b c imm | bl c imm => exact align4_align4 (s.pc + 4 + branchDisp imm)
  | _ => rfl

/-- Every next `pc` is a multiple of 4 (R26). -/
theorem effect_pcAligned (i : Instr) (s : State) : (effect i s).PcAligned := by
  rw [State.PcAligned, effect_pc]
  cases i <;> exact align4_toNat_mod _

/-- Settles O22: the effect's `pc` when the condition passes, the advance when it fails. -/
theorem nextPcOfEveryInstruction : Obligations.NextPcOfEveryInstruction := by
  intro i s haligned
  refine ⟨_, exec_eq i s, ?_⟩
  cases s.psr.passes i.cond with
  | false => exact State.advance_pc_aligned haligned
  | true =>
    simp only [if_true, effect_pc]
    cases i with
    | b c imm | bl c imm => exact congrArg (fun disp => align4 (s.pc + 4 + disp)) (branchDisp_eq imm)
    | svc | eret => rfl
    | _ => exact align4_add_four haligned

/-! ## The image and the system registers -/

/-- No instruction accesses the image (R51). -/
@[simp] theorem effect_imem (i : Instr) (s : State) : (effect i s).imem = s.imem := by
  cases i with
  | add | sub | and | orr | eor | mov | mvn | mrs => exact dataEffect_imem _ _ _ s
  | _ => rfl

/-- No instruction but SVC writes a system register (R42). -/
theorem effect_sys_of_ne_svc {i : Instr} (hsvc : ∀ c, i ≠ .svc c) (s : State) : (effect i s).sys = s.sys := by
  cases i with
  | svc c => exact absurd rfl (hsvc c)
  | add | sub | and | orr | eor | mov | mvn | mrs => exact dataEffect_sys _ _ _ s
  | _ => rfl

/-- Whatever the instruction, only ELR and SPSR of the system registers can change (R42). -/
theorem effect_sys_but_exception_pair (i : Instr) (s : State) :
    (effect i s).sys = { s.sys with elr := (effect i s).sys.elr, spsr := (effect i s).sys.spsr } := by
  by_cases hsvc : ∃ c, i = .svc c
  · obtain ⟨c, rfl⟩ := hsvc
    rfl
  · rw [effect_sys_of_ne_svc (not_exists.mp hsvc)]

/-! ## Steps -/

/-- A step is total: it never faults and is never refused (R107). -/
theorem step_total (s : State) : ∃ t, step s = .next t := ⟨_, (step_eq s).trans (exec_eq _ s)⟩

/-- A step ends in the effect of the decoded instruction, or only advances. -/
theorem step_next {s t : State} (hstep : step s = .next t) :
    (s.psr.passes (decode s.fetchWord).cond = true ∧ t = effect (decode s.fetchWord) s) ∨
      (s.psr.passes (decode s.fetchWord).cond = false ∧ t = s.advance) :=
  exec_next ((step_eq s).symm.trans hstep)

/-- No step changes the image (R51). -/
theorem step_imem {s t : State} (hstep : step s = .next t) : t.imem = s.imem := by
  rcases step_next hstep with ⟨-, rfl⟩ | ⟨-, rfl⟩
  · exact effect_imem _ s
  · rfl

/-- Settles O14: `pc` is 0 and no byte of the image is listed. -/
theorem resetMeetsTheInvariant : Obligations.ResetMeetsTheInvariant := ⟨⟨rfl, rfl⟩, fun _ => rfl⟩

/-- Settles O15: every write of `pc` is aligned and the image is not written. -/
theorem stepKeepsTheInvariant : Obligations.StepKeepsTheInvariant := by
  intro s t ⟨_, hcanonical⟩ hstep
  refine ⟨?_, (step_imem hstep).symm ▸ hcanonical⟩
  rcases step_next hstep with ⟨-, rfl⟩ | ⟨-, rfl⟩
  · exact effect_pcAligned _ s
  · exact align4_toNat_mod _

/-- Settles O17: an instruction that is no SVC keeps both registers, and SVC's entry writes them. -/
theorem exceptionPairChangesOnlyBySvc : Obligations.ExceptionPairChangesOnlyBySvc := by
  intro s t hstep hchanged
  rcases step_next hstep with ⟨hpasses, rfl⟩ | ⟨-, rfl⟩
  · by_cases hsvc : ∃ c, decode s.fetchWord = .svc c
    · obtain ⟨c, hc⟩ := hsvc
      rw [hc] at hpasses ⊢
      exact ⟨c, rfl, hpasses, rfl, rfl⟩
    · rw [effect_sys_of_ne_svc (not_exists.mp hsvc)] at hchanged
      exact absurd hchanged (by simp)
  · exact absurd hchanged (by simp)

/-! ## Runs -/

/-- A run of one step more begins with a step. -/
theorem run_succ {s t : State} (hstep : step s = .next t) (k : Nat) :
    Sys2Proof.core.run (k + 1) s = Sys2Proof.core.run k t := by
  have hcore : Sys2Proof.core.step s = .next t := hstep
  simp only [Host.Core.run, hcore]

/-- Settles O13, by induction on the number of steps. -/
theorem everyRunIsSafe : Obligations.EveryRunIsSafe := by
  intro k
  induction k with
  | zero => exact fun s => ⟨s, rfl⟩
  | succ k ih =>
    intro s
    obtain ⟨t, hstep⟩ := step_total s
    rw [RunsSafely, run_succ hstep]
    exact ih t

/-- What a run keeps: a relation that holds of every state with itself, and that a step in front of it extends, holds
between the two ends of every run. -/
theorem run_induction {R : State → State → Prop} (hrefl : ∀ s, R s s)
    (hstep : ∀ s u t, step s = .next u → R u t → R s t) :
    ∀ (k : Nat) (s t : State), Sys2Proof.core.run k s = .next t → R s t := by
  intro k
  induction k with
  | zero => intro s t hrun; cases hrun; exact hrefl s
  | succ k ih =>
    intro s t hrun
    obtain ⟨u, hu⟩ := step_total s
    rw [run_succ hu] at hrun
    exact hstep s u t hu (ih u t hrun)

/-- The image is kept, and every system register but ELR and SPSR. -/
def KeepsImageAndSys (s t : State) : Prop :=
  t.imem = s.imem ∧ t.sys = { s.sys with elr := t.sys.elr, spsr := t.sys.spsr }

/-- What two runs keep, the run of both keeps. -/
theorem KeepsImageAndSys.trans {s u t : State} (hsu : KeepsImageAndSys s u) (hut : KeepsImageAndSys u t) :
    KeepsImageAndSys s t := by
  obtain ⟨himem, hsys⟩ := hsu
  obtain ⟨himem', hsys'⟩ := hut
  refine ⟨himem'.trans himem, ?_⟩
  rw [hsys] at hsys'
  exact hsys'

/-- Every step keeps them. -/
theorem step_keepsImageAndSys {s t : State} (hstep : step s = .next t) : KeepsImageAndSys s t := by
  refine ⟨step_imem hstep, ?_⟩
  rcases step_next hstep with ⟨-, rfl⟩ | ⟨-, rfl⟩
  · exact effect_sys_but_exception_pair _ s
  · rfl

/-- Settles O16, by induction on the run. -/
theorem runsKeepImageAndSystemRegisters : Obligations.RunsKeepImageAndSystemRegisters := by
  intro k s t hrun
  obtain ⟨himem, hsys⟩ := run_induction (R := KeepsImageAndSys) (fun _ => ⟨rfl, rfl⟩)
    (fun _ _ _ hstep hrest => (step_keepsImageAndSys hstep).trans hrest) k s t hrun
  exact ⟨himem, fun a => by rw [himem], hsys⟩

/-! ## The registers -/

/-- An instruction leaves every register r0 to r12, sp and lr that is neither its destination nor BL's link (R28). -/
theorem effect_readReg_of_not_written {i : Instr} {n : Nat} (hn : n < 15) (hdest : i.destination ≠ some n)
    (hlink : n = 14 → ∀ c imm, i ≠ .bl c imm) (s : State) : (effect i s).readReg n = s.readReg n := by
  have hpc : n ≠ 15 := by omega
  cases i with
  | add c f rd | sub c f rd | and c f rd | orr c f rd | eor c f rd | mov c f rd | mvn c f rd | mrs c rd =>
    exact dataEffect_readReg_ne _ _ _ s hpc fun hsame => hdest (congrArg some hsame.symm)
  | bl c imm =>
    have hlr : n ≠ 14 := fun hsame => hlink hsame c imm rfl
    rw [effect, State.readReg_setPc _ hpc, State.readReg_writeReg_ne _ hlr.symm]
  | b => exact State.readReg_setPc s hpc _
  | tst | cmp | msr => rw [effect, State.readReg_advance _ hpc, State.readReg_setPsr]
  | svc => exact State.readReg_enterException s hpc _
  | eret => exact State.readReg_returnFromException s hpc
  | _ => exact State.readReg_advance s hpc

/-- Settles O19: a register that is not written is kept, and a failed condition writes none. -/
theorem registersChangeOnlyAsDestinations : Obligations.RegistersChangeOnlyAsDestinations := by
  intro i s t n hnext hn hchanged
  rcases exec_next hnext with ⟨hpasses, rfl⟩ | ⟨-, rfl⟩
  · refine ⟨hpasses, ?_⟩
    by_contra hneither
    obtain ⟨hdest, hlink⟩ := not_or.mp hneither
    exact hchanged (effect_readReg_of_not_written hn hdest (fun h c imm hbl => hlink ⟨h, c, imm, hbl⟩) s)
  · exact absurd (State.readReg_advance s (by omega)) hchanged

/-! ## The status word -/

/-- An instruction outside R30's row of N and Z changes at most the privilege bit of the status word. -/
theorem effect_psr_of_not_mayWriteNZ {i : Instr} (hkeeps : mayWriteNZ i = false) (s : State) :
    (effect i s).psr = { s.psr with p := (effect i s).psr.p } := by
  cases i with
  | add c f | sub c f | and c f | orr c f | eor c f | mov c f | mvn c f =>
    obtain rfl : f = false := hkeeps
    rw [effect, dataEffect_psr, flagsIf_false]
  | tst | cmp | msr | eret => cases hkeeps
  | mrs => rw [effect, dataEffect_psr]
  | bl => rw [effect, State.setPc_psr, State.writeReg_psr]
  | _ => rfl

/-- An instruction outside R30's row of C and V keeps both. -/
theorem effect_psr_cv_of_not_mayWriteCV {i : Instr} (hkeeps : mayWriteCV i = false) (s : State) :
    (effect i s).psr.c = s.psr.c ∧ (effect i s).psr.v = s.psr.v := by
  have hother : mayWriteNZ i = false → (effect i s).psr.c = s.psr.c ∧ (effect i s).psr.v = s.psr.v := fun hnz => by
    rw [effect_psr_of_not_mayWriteNZ hnz]; exact ⟨rfl, rfl⟩
  cases i with
  | tst => exact ⟨rfl, rfl⟩
  | _ => exact hother hkeeps

/-- An instruction outside R30's row of I and F keeps both: the ALU's flag updates leave them. -/
theorem effect_psr_masks_of_not_mayWriteMasks {i : Instr} (hkeeps : mayWriteMasks i = false) (s : State) :
    (effect i s).psr.i = s.psr.i ∧ (effect i s).psr.f = s.psr.f := by
  cases i with
  | msr | eret => cases hkeeps
  | add c f | sub c f | and c f | orr c f | eor c f | mov c f | mvn c f =>
    rw [effect, dataEffect_psr]
    cases f <;> exact ⟨rfl, rfl⟩
  | mrs => rw [effect, dataEffect_psr]; exact ⟨rfl, rfl⟩
  | bl => rw [effect, State.setPc_psr, State.writeReg_psr]; exact ⟨rfl, rfl⟩
  | _ => exact ⟨rfl, rfl⟩

/-- Settles O20, row by row. -/
theorem flagsChangeOnlyAsListed : Obligations.FlagsChangeOnlyAsListed := by
  intro i s t hnext
  rcases exec_next hnext with ⟨-, rfl⟩ | ⟨-, rfl⟩
  · refine ⟨fun hnz => ?_, fun hcv => effect_psr_cv_of_not_mayWriteCV hcv s,
      fun hmasks => effect_psr_masks_of_not_mayWriteMasks hmasks s,
      fun hp => effect_psr_p_of_not_mayWritePrivilege hp s⟩
    rw [effect_psr_of_not_mayWriteNZ hnz]
    exact ⟨rfl, rfl⟩
  · exact ⟨fun _ => ⟨rfl, rfl⟩, fun _ => ⟨rfl, rfl⟩, fun _ => ⟨rfl, rfl⟩, fun _ => rfl⟩

end Sys2Proof.Machine
end

section
/-! PROOFS. The mode and the masks decide nothing (R214, R215): two states that differ in I, F and P only. -/

namespace Sys2Proof.Machine

/-- Two status words with the same N, Z, C and V. -/
def SameArithmeticFlags (p q : Psr) : Prop := q.n = p.n ∧ q.z = p.z ∧ q.c = p.c ∧ q.v = p.v

/-- They pass the same conditions (R105). -/
theorem passes_of_sameArithmeticFlags {p q : Psr} (hsame : SameArithmeticFlags p q) (c : Cond) :
    q.passes c = p.passes c := by
  obtain ⟨hn, hz, hc, hv⟩ := hsame
  exact Psr.passes_congr hn hz hc hv c

/-- A register write and a write of the status word do not meet. -/
theorem State.writeReg_setPsr (s : State) (q : Psr) (i : Nat) (v : Word) :
    (s.setPsr q).writeReg i v = (s.writeReg i v).setPsr q := by
  unfold State.writeReg
  split_ifs <;> rfl

/-- A data instruction overwrites the status word it finds. -/
theorem dataEffect_setPsr (rd : Nat) (v : Word) (p p' q : Psr) (s : State) :
    dataEffect rd v p' (s.setPsr q) = (dataEffect rd v p s).setPsr p' := by
  rw [dataEffect, State.writeReg_setPsr]
  rfl

/-- Apart from MRS and SVC, which copy it, the status word before an instruction shows only in the one after it. -/
theorem effect_setPsr {i : Instr} (hmrs : ∀ c rd, i ≠ .mrs c rd) (hsvc : ∀ c, i ≠ .svc c) (s : State) (q : Psr) :
    effect i (s.setPsr q) = (effect i s).setPsr (effect i (s.setPsr q)).psr := by
  cases i with
  | mrs c rd => exact absurd rfl (hmrs c rd)
  | svc c => exact absurd rfl (hsvc c)
  | add | sub | and | orr | eor | mov | mvn => exact dataEffect_setPsr _ _ _ _ q s
  | _ => rfl

/-- Every register but MRS's destination is the same whatever the status word was. -/
theorem effect_setPsr_readReg {i : Instr} {n : Nat} (hn : n < 15) (hmrs : ∀ c, i ≠ .mrs c n) (s : State) (q : Psr) :
    (effect i (s.setPsr q)).readReg n = (effect i s).readReg n := by
  have hpc : n ≠ 15 := by omega
  by_cases hisMrs : ∃ c rd, i = .mrs c rd
  · obtain ⟨c, rd, rfl⟩ := hisMrs
    have hrd : n ≠ rd := fun hsame => hmrs c (hsame ▸ rfl)
    rw [effect, effect, dataEffect_readReg_ne _ _ _ _ hpc hrd, dataEffect_readReg_ne _ _ _ _ hpc hrd,
      State.readReg_setPsr]
  by_cases hisSvc : ∃ c, i = .svc c
  · obtain ⟨c, rfl⟩ := hisSvc
    rw [effect, effect, State.readReg_enterException _ hpc, State.readReg_enterException _ hpc, State.readReg_setPsr]
  · rw [effect_setPsr (fun c rd hi => hisMrs ⟨c, rd, hi⟩) (not_exists.mp hisSvc), State.readReg_setPsr]

/-- An instruction leaves N, Z, C and V the same on two status words that agree on them. -/
theorem effect_sameArithmeticFlags {s : State} {q : Psr} (hsame : SameArithmeticFlags s.psr q) (i : Instr) :
    SameArithmeticFlags (effect i s).psr (effect i (s.setPsr q)).psr := by
  obtain ⟨hn, hz, hc, hv⟩ := hsame
  cases i with
  | add c f | sub c f | and c f | orr c f | eor c f | mov c f | mvn c f =>
    rw [effect, effect, dataEffect_psr, dataEffect_psr]
    cases f
    · exact ⟨hn, hz, hc, hv⟩
    · exact ⟨rfl, rfl, rfl, rfl⟩
  | tst => exact ⟨rfl, rfl, hc, hv⟩
  | cmp | msr | eret => exact ⟨rfl, rfl, rfl, rfl⟩
  | mrs => rw [effect, effect, dataEffect_psr, dataEffect_psr]; exact ⟨hn, hz, hc, hv⟩
  | _ => exact ⟨hn, hz, hc, hv⟩

/-- Settles O21: both states judge the condition alike, and the effects agree field by field; an effect sees the status
word only where it copies it. -/
theorem modeAndMasksDecideNothing : Obligations.ModeAndMasksDecideNothing := by
  intro i s bi bf bp
  have hsame : SameArithmeticFlags s.psr { s.psr with i := bi, f := bf, p := bp } := ⟨rfl, rfl, rfl, rfl⟩
  generalize ({ s.psr with i := bi, f := bf, p := bp } : Psr) = q at hsame ⊢
  have hpasses' : q.passes i.cond = s.psr.passes i.cond := passes_of_sameArithmeticFlags hsame i.cond
  cases hpasses : s.psr.passes i.cond with
  | false =>
    obtain ⟨hn, hz, hc, hv⟩ := hsame
    exact ⟨s.advance, (s.setPsr q).advance, exec_fail hpasses, exec_fail (hpasses'.trans hpasses), rfl, rfl, hn, hz, hc,
      hv, fun _ _ _ => rfl, rfl, fun _ => rfl⟩
  | true =>
    obtain ⟨hn, hz, hc, hv⟩ := effect_sameArithmeticFlags hsame i
    refine ⟨effect i s, effect i (s.setPsr q), exec_pass hpasses, exec_pass (hpasses'.trans hpasses), ?_, ?_, hn, hz,
      hc, hv, fun n hlt hmrs => effect_setPsr_readReg hlt hmrs s q, ?_, fun hsvc => ?_⟩
    · rw [effect_pc, effect_pc]; rfl
    · rw [effect_imem, effect_imem, State.setPsr_imem]
    · by_cases hsvc : ∃ c, i = .svc c
      · obtain ⟨c, rfl⟩ := hsvc
        rfl
      · rw [effect_sys_of_ne_svc (not_exists.mp hsvc), effect_sys_of_ne_svc (not_exists.mp hsvc), State.setPsr_sys]
    · rw [effect_sys_of_ne_svc hsvc, effect_sys_of_ne_svc hsvc, State.setPsr_sys]

end Sys2Proof.Machine
end

section
/-! PROOFS. The conditions' truth table (R104), the flags of a subtraction (R122) and the completion of the ALU
instructions (R124 to R132, R134, R135). -/

namespace Sys2Proof.Machine

/-- Settles O23: the 256 entries are evaluated. -/
theorem conditionTruthTable : Obligations.ConditionTruthTable := by
  unfold Obligations.ConditionTruthTable
  decide

/-! ## The flags of a subtraction -/

/-- The model's overflow of a subtraction, its two bounds read as one condition (R122). -/
theorem subOverflow_eq_decide_out_of_range (a b : Word) :
    subOverflow a b = decide (a.toInt - b.toInt < -2 ^ 31 ∨ 2 ^ 31 - 1 < a.toInt - b.toInt) :=
  (Bool.decide_or _ _).symm

/-- The model's overflow of a subtraction is the library's signed overflow, at the subtrahend 0x8000_0000 too (X9). -/
theorem subOverflow_eq_ssubOverflow (a b : Word) : subOverflow a b = a.ssubOverflow b := by
  have hupper : 2 ^ 31 - 1 < a.toInt - b.toInt ↔ 2 ^ (32 - 1) ≤ a.toInt - b.toInt := by omega
  simp only [subOverflow, BitVec.ssubOverflow, hupper, ge_iff_le, Bool.or_comm, Nat.add_one_sub_one]

/-- Overflow by signs: the operands differ in sign, and the result differs in sign from the minuend. -/
theorem subOverflow_eq_decide_sign_differs (a b : Word) :
    subOverflow a b = (decide (a.msb ≠ b.msb) && decide ((a - b).msb ≠ a.msb)) := by
  rw [subOverflow_eq_ssubOverflow, BitVec.ssubOverflow_eq]
  cases a.msb <;> cases b.msb <;> cases (a - b).msb <;> rfl

/-- The carry of a subtraction is the negation of the borrow. -/
theorem subCarry_eq_not_borrow (a b : Word) : subCarry a b = !decide (a.toNat < b.toNat) := by
  rw [subCarry, ← decide_not, decide_eq_decide, Nat.not_lt]

/-- Settles O27: the carry by its order, the overflow in both forms. -/
theorem subFlagsBothForms : Obligations.SubFlagsBothForms := fun a b =>
  ⟨subCarry_eq_not_borrow a b, subOverflow_eq_decide_out_of_range a b, subOverflow_eq_decide_sign_differs a b⟩

/-! ## Flags in terms of the operands -/

/-- A zero-extended immediate is not negative. -/
theorem zext32_toInt (imm : BitVec 12) : (zext32 imm).toInt = imm.toNat := by
  have hlt := imm.isLt
  rw [BitVec.toInt_eq_toNat_of_lt] <;> rw [zext32_toNat]
  omega

/-- A zero-extended immediate has the sign bit clear. -/
theorem zext32_msb (imm : BitVec 12) : (zext32 imm).msb = false := by
  have hlt := imm.isLt
  rw [BitVec.msb_eq_false_iff_two_mul_lt, zext32_toNat]
  omega

/-- A sum of two words is 0 when the exact sum is 0 or wraps to it. -/
theorem add_eq_zero_iff_toNat (a b : Word) : a + b = 0 ↔ a.toNat + b.toNat = 0 ∨ a.toNat + b.toNat = 2 ^ 32 := by
  have ha := a.isLt
  have hb := b.isLt
  have hzero : (0 : Word).toNat = 0 := rfl
  rw [← BitVec.toNat_inj, BitVec.toNat_add, hzero]
  omega

/-- ADD's flags with an immediate, from the exact sum (R121, R123). -/
theorem Psr.addFlags_zext32 (p : Psr) (a : Word) (imm : BitVec 12) : p.addFlags a (zext32 imm) =
    { p with
      n := (a + imm.setWidth 32).msb
      z := decide (a.toNat + imm.toNat = 0 ∨ a.toNat + imm.toNat = 2 ^ 32)
      c := decide (2 ^ 32 ≤ a.toNat + imm.toNat)
      v := decide (a.toInt + imm.toNat < -2 ^ 31 ∨ 2 ^ 31 - 1 < a.toInt + imm.toNat) } := by
  simp only [Psr.addFlags_eq, addCarry, addOverflow_eq_decide_out_of_range, add_eq_zero_iff_toNat, zext32_toNat,
    zext32_toInt]
  rfl

/-- The flags of a difference from its operands (R122, R123). -/
theorem Psr.subFlags_operands (p : Psr) (a b : Word) : p.subFlags a b =
    { p with
      n := (a - b).msb
      z := decide (a = b)
      c := decide (b.toNat ≤ a.toNat)
      v := decide (a.toInt - b.toInt < -2 ^ 31 ∨ 2 ^ 31 - 1 < a.toInt - b.toInt) } := by
  simp only [Psr.subFlags_eq, subCarry, subOverflow_eq_decide_out_of_range, sub_eq_zero]

/-- SUB's flags with an immediate, from the exact difference (R122, R123). -/
theorem Psr.subFlags_zext32 (p : Psr) (a : Word) (imm : BitVec 12) : p.subFlags a (zext32 imm) =
    { p with
      n := (a - imm.setWidth 32).msb
      z := decide (a.toNat = imm.toNat)
      c := decide (imm.toNat ≤ a.toNat)
      v := decide (a.toInt - imm.toNat < -2 ^ 31 ∨ 2 ^ 31 - 1 < a.toInt - imm.toNat) } := by
  simp only [Psr.subFlags_operands, ← BitVec.toNat_inj, zext32_toNat, zext32_toInt]
  rfl

/-! ## Data instructions -/

/-- A data instruction from an aligned `pc`: the result, and what it leaves (R120, R134). -/
theorem dataEffect_dataResult {s : State} (haligned : s.PcAligned) (rd : Nat) (v : Word) (p : Psr) :
    DataResult rd v s (dataEffect rd v p s) := by
  refine ⟨dataEffect_readReg_same rd v p s, fun i hi hother => ?_, ?_, dataEffect_sys rd v p s, fun a => ?_⟩
  · exact dataEffect_readReg_ne rd v p s (by omega) (List.ne_of_not_mem_cons hother)
  · rw [dataEffect_pc, align4_add_four haligned]
  · rw [dataEffect_imem]

/-- A logical instruction from an aligned `pc` (R126 to R130). -/
theorem dataEffect_logicResult {s : State} (haligned : s.PcAligned) (f : Bool) (rd : Nat) (v : Word) :
    LogicResult f rd v s (dataEffect rd v (flagsIf f (s.psr.logicFlags v) s.psr) s) :=
  ⟨dataEffect_dataResult haligned rd v _, dataEffect_psr rd v _ s⟩

/-- Settles O28: `pc` advances whatever the destination, and the flags are those of the exact sum. -/
theorem addCompletes : Obligations.AddCompletes := by
  intro c f rd rn imm s haligned hpasses
  refine ⟨_, exec_pass hpasses, dataEffect_dataResult haligned rd _ _, ?_⟩
  rw [effect, dataEffect_psr, Psr.addFlags_zext32, flagsIf]

/-- Settles O29: as ADD, with the flags of the exact difference. -/
theorem subCompletes : Obligations.SubCompletes := by
  intro c f rd rn imm s haligned hpasses
  refine ⟨_, exec_pass hpasses, dataEffect_dataResult haligned rd _ _, ?_⟩
  rw [effect, dataEffect_psr, Psr.subFlags_zext32, flagsIf]

/-- Settles O30: the three share one effect, with their own results. -/
theorem bitwiseInstructionsComplete : Obligations.BitwiseInstructionsComplete :=
  fun _ f rd _ _ _ haligned hpasses =>
    ⟨⟨_, exec_pass hpasses, dataEffect_logicResult haligned f rd _⟩,
     ⟨_, exec_pass hpasses, dataEffect_logicResult haligned f rd _⟩,
     ⟨_, exec_pass hpasses, dataEffect_logicResult haligned f rd _⟩⟩

/-- Settles O31: a zero-extended immediate is never negative. -/
theorem movesComplete : Obligations.MovesComplete := by
  intro c f rd rm imm s haligned hpasses
  refine ⟨⟨_, exec_pass hpasses, dataEffect_logicResult haligned f rd _, fun hflags => ?_⟩,
    ⟨_, exec_pass hpasses, dataEffect_logicResult haligned f rd _⟩⟩
  rw [effect, dataEffect_psr, hflags, flagsIf_true, Psr.logicFlags_n, zext32_msb]

/-! ## The comparisons -/

/-- The status word replaced and `pc` advanced, as one record update. -/
theorem State.setPsr_advance_eq {s : State} (haligned : s.PcAligned) (p : Psr) :
    (s.setPsr p).advance = { s with psr := p, pc := s.pc + 4 } := State.advance_eq (s := s.setPsr p) haligned

/-- Settles O32: TST's update of the status word is N and Z alone. -/
theorem testCompletes : Obligations.TestCompletes := by
  intro c rn rm s haligned hpasses
  rw [exec_pass hpasses, effect, State.setPsr_advance_eq haligned, Psr.testFlags_eq]

/-- Settles O33: the flags of the difference, in terms of the operands. -/
theorem compareCompletes : Obligations.CompareCompletes := by
  intro c rn rm s haligned hpasses
  rw [exec_pass hpasses, effect, State.setPsr_advance_eq haligned, Psr.subFlags_operands]

/-! ## Index 15 -/

/-- Settles O35: with destination 15 the policies differ in what they make of the written `pc`; with any other the
written `pc` is the old one. -/
theorem destinationFifteenByPolicy : Obligations.DestinationFifteenByPolicy := by
  intro v p s haligned
  refine ⟨?_, ?_, rfl, rfl, fun policy rd hrd => ?_⟩
  · exact congrArg (fun target => Host.Outcome.next { s with psr := p, pc := target }) (align4_add_four haligned)
  · have hnext : align4 (align4 v + 4) = align4 v + 4 := align4_add_four (align4_toNat_mod v)
    exact congrArg (fun target => Host.Outcome.next { s with psr := p, pc := target }) hnext
  · cases policy with
    | supersede => rfl
    | writeThenAdvance => simp only [writeResult, State.setPsr_pc, State.writeReg_pc, if_neg hrd]
    | refuse => simp only [writeResult, if_neg hrd]

/-- A data instruction whose condition passes completes with its result in its destination. -/
theorem exec_dataEffect_readReg {i : Instr} {s : State} {rd : Nat} {v : Word} {p : Psr}
    (hpasses : s.psr.passes i.cond = true) (heffect : effect i s = dataEffect rd v p s) (hrd : rd < 15) :
    ∃ t, exec i s = .next t ∧ t.readReg rd = v :=
  ⟨_, exec_pass hpasses, by rw [heffect, dataEffect_readReg_same rd v p s hrd]⟩

/-- CMP's flags are those of the difference of its operands. -/
theorem setPsr_subFlags_differenceFlags (a b : Word) (s : State) :
    DifferenceFlags a b (s.setPsr (s.psr.subFlags a b)).advance := by
  rw [Psr.subFlags_operands]
  exact ⟨rfl, rfl, rfl, rfl⟩

/-- Settles O36: index 15 reads `pc`, so each instruction's effect is the one computed from it. -/
theorem sourceFifteenIsOwnAddress : Obligations.SourceFifteenIsOwnAddress := by
  refine ⟨State.readReg_pc, fun c f rd n imm s hpasses hrd => ?_, fun c n s hpasses => ?_⟩
  · exact ⟨exec_dataEffect_readReg hpasses rfl hrd, exec_dataEffect_readReg hpasses rfl hrd,
      exec_dataEffect_readReg hpasses rfl hrd, exec_dataEffect_readReg hpasses rfl hrd,
      exec_dataEffect_readReg hpasses rfl hrd, exec_dataEffect_readReg hpasses rfl hrd,
      exec_dataEffect_readReg hpasses rfl hrd, exec_dataEffect_readReg hpasses rfl hrd,
      exec_dataEffect_readReg hpasses rfl hrd⟩
  · exact ⟨⟨_, exec_pass hpasses, rfl, rfl⟩, ⟨_, exec_pass hpasses, rfl, rfl⟩,
      ⟨_, exec_pass hpasses, setPsr_subFlags_differenceFlags _ _ s⟩,
      ⟨_, exec_pass hpasses, setPsr_subFlags_differenceFlags _ _ s⟩,
      ⟨_, exec_pass hpasses, rfl⟩⟩

end Sys2Proof.Machine
end

section
/-! PROOFS. The System class: the status codec's laws (R33), MRS and MSR (R171, R172), and the return from an exception
(R207 to R210). -/

namespace Sys2Proof.Machine

/-! ## The codec's laws -/

/-- Every flag is read back from its own bit (R33). -/
@[simp] theorem decodePsr_encodePsr (p : Psr) : decodePsr (encodePsr p) = p := by
  simp only [decodePsr_eq, getLsbD_encodePsr]
  rfl

/-- Packing a decoded word keeps the seven bits of R31 and no other. -/
theorem encodePsr_decodePsr (w : Word) : encodePsr (decodePsr w) = w &&& 0xF00000C1#32 := by
  apply BitVec.eq_of_getLsbD_eq
  intro k hk
  rw [getLsbD_encodePsr, decodePsr_eq, BitVec.getLsbD_and]
  interval_cases k <;> simp

/-- Settles O42: the first law flag by flag, the second bit by bit. -/
theorem statusCodecLaws : Obligations.StatusCodecLaws := ⟨decodePsr_encodePsr, encodePsr_decodePsr⟩

/-! ## MRS and MSR -/

/-- Settles O43: MRS is a data instruction whose result is the packed status word. -/
theorem statusReadCompletes : Obligations.StatusReadCompletes := fun _ rd s haligned hpasses =>
  ⟨_, exec_pass hpasses, dataEffect_dataResult haligned rd _ _, dataEffect_psr rd _ _ s⟩

/-- Settles O44: the decoder takes each flag from its own bit of the source. -/
theorem statusWriteCompletes : Obligations.StatusWriteCompletes := by
  intro c rn s haligned hpasses
  rw [exec_pass hpasses, effect, State.setPsr_advance_eq haligned, decodePsr_eq]

/-! ## Return from an exception -/

/-- ERET whose condition passes (R174, R207). -/
theorem exec_eret_of_passes {c : Cond} {s : State} (hpasses : s.psr.passes c = true) :
    exec (.eret c) s = .next { s with psr := decodePsr s.sys.spsr, pc := align4 s.sys.elr } :=
  exec_pass hpasses

/-- ERET from a state whose ELR is an aligned address and whose SPSR is a packed status word goes back to both. -/
theorem exec_eret_of_saved {c : Cond} {s : State} {p : Psr} (hpasses : s.psr.passes c = true)
    (haligned : s.sys.elr.toNat % 4 = 0) (hsaved : s.sys.spsr = encodePsr p) :
    exec (.eret c) s = .next { s with psr := p, pc := s.sys.elr } := by
  rw [exec_eret_of_passes hpasses, hsaved, decodePsr_encodePsr, align4_of_aligned haligned]

/-- The System table gives opcode 0x3 the return (R78). -/
theorem systemInstr_eq_eret {d : Decoded} (hop : d.opcode = 0x3#4) : systemInstr d = .eret d.cond := by
  simp only [systemInstr, hop]

/-- Every word of ERET's row is ERET: no field but the condition has a meaning (R75, R78). -/
theorem decode_eq_eret {w : Word} (hrow : w &&& 0x09E00000#32 = 0x08600000#32) :
    decode w = .eret (decodeFields w).cond := by
  have hop : (decodeFields w).opcode = 0x3#4 := decodeFields_opcode_of_systemRow hrow
  rw [decode_of_systemRow hrow rfl, systemInstr_eq_eret hop]

/-- Settles O46: what the entry saved is what the return restores. -/
theorem exceptionReturnRestores : Obligations.ExceptionReturnRestores := by
  refine ⟨fun c s hpasses => exec_eret_of_passes hpasses, fun c c' s t haligned hpasses hentry hpasses' => ?_,
    fun w hrow => decode_eq_eret hrow⟩
  obtain rfl := Host.Outcome.next.inj ((exec_svc_of_passes hpasses).symm.trans hentry)
  exact ⟨_, exec_eret_of_saved hpasses' haligned rfl, rfl, rfl⟩

/-- Settles O47: the return gives back everything the call reads. -/
theorem returnReexecutesSupervisorCall : Obligations.ReturnReexecutesSupervisorCall := by
  intro c s haligned hpasses
  exact ⟨_, _, exec_svc_of_passes hpasses, exec_eret_of_saved (Psr.passes_al _) haligned rfl, rfl, hpasses,
    exec_svc_of_passes (s := { s with sys := { s.sys with elr := s.pc, spsr := encodePsr s.psr } }) hpasses⟩

/-- The packed status word holds the mode at bit 0 (R31). -/
theorem encodePsr_bit_zero (p : Psr) : (encodePsr p).getLsbD 0 = p.p := getLsbD_encodePsr p 0

/-- Where P is set already, the entry leaves the status word. -/
theorem exec_svc_of_privileged {c : Cond} {s : State} (hprivileged : s.psr.p = true)
    (hpasses : s.psr.passes c = true) :
    exec (.svc c) s = .next { s with
      sys := { s.sys with elr := s.pc, spsr := encodePsr s.psr }
      pc := align1K s.sys.vbar + svcOffset } := by
  have hkept : { s.psr with p := true } = s.psr := by rw [← hprivileged]
  rw [exec_svc_of_passes hpasses, hkept]

/-- Settles O48: the entry reads neither ELR nor SPSR and overwrites both. -/
theorem nestedSupervisorCallLosesOuterReturn : Obligations.NestedSupervisorCallLosesOuterReturn := by
  refine ⟨fun c s hprivileged hpasses => ?_, fun c c' s t hpasses hentry hpasses' => ?_⟩
  · exact ⟨_, exec_svc_of_privileged hprivileged hpasses, rfl, rfl, (encodePsr_bit_zero s.psr).trans hprivileged, rfl,
      fun elr spsr => exec_svc_of_privileged (s := { s with sys := { s.sys with elr := elr, spsr := spsr } })
        hprivileged hpasses⟩
  · obtain rfl := Host.Outcome.next.inj ((exec_svc_of_passes hpasses).symm.trans hentry)
    exact ⟨rfl, _, exec_svc_of_privileged rfl hpasses', rfl, rfl, encodePsr_bit_zero _, rfl, rfl⟩

end Sys2Proof.Machine
end

section
/-! PROOFS. The host's register access (R23, R24, R36, R236) and the platform's address map (R57, R58). -/

namespace Sys2Proof.Machine

/-- Settles O51: the host's access is the register access of R23 and R24. -/
theorem hostRegisterAccess : Obligations.HostRegisterAccess := fun s i _ v =>
  ⟨fun hi => State.readReg_writeReg_same s hi v, align4_toNat v, fun hother => State.readReg_writeReg_ne s hother v,
   fun hinvalid => ⟨s.readReg_invalid hinvalid, s.writeReg_invalid hinvalid v⟩,
   s.writeReg_psr i v, s.writeReg_sys i v, s.writeReg_imem i v⟩

/-! ## The system registers -/

/-- The ten 32-bit system registers are ten places. -/
theorem hostReadSys_hostWriteSys (s : State) (g g' : SysReg) (v : Word) :
    hostReadSys (hostWriteSys s g v) g' = if g = g' then v else hostReadSys s g' := by
  cases g <;> cases g' <;> rfl

/-- CNT and CMP are two places. -/
theorem hostReadSys64_hostWriteSys64 (s : State) (h h' : SysReg64) (v : DWord) :
    hostReadSys64 (hostWriteSys64 s h v) h' = if h = h' then v else hostReadSys64 s h' := by
  cases h <;> cases h' <;> rfl

/-- Neither CNT nor CMP shares a place with a 32-bit system register. -/
theorem hostReadSys64_hostWriteSys (s : State) (g : SysReg) (h : SysReg64) (v : Word) :
    hostReadSys64 (hostWriteSys s g v) h = hostReadSys64 s h := by
  cases g <;> rfl

/-- No 32-bit system register shares a place with CNT or CMP. -/
theorem hostReadSys_hostWriteSys64 (s : State) (g : SysReg) (h : SysReg64) (v : DWord) :
    hostReadSys (hostWriteSys64 s h v) g = hostReadSys s g := by
  cases h <;> rfl

/-- A host write of a 32-bit system register changes nothing outside the block. -/
theorem hostWriteSys_eq_setSys (s : State) (g : SysReg) (v : Word) : ∃ y, hostWriteSys s g v = s.setSys y := by
  cases g <;> exact ⟨_, rfl⟩

/-- A host write of CNT or CMP changes nothing outside the block. -/
theorem hostWriteSys64_eq_setSys (s : State) (h : SysReg64) (v : DWord) : ∃ y, hostWriteSys64 s h v = s.setSys y := by
  cases h <;> exact ⟨_, rfl⟩

/-- Settles O53: the block is twelve places, and nothing outside it is written. -/
theorem hostSystemRegisterAccess : Obligations.HostSystemRegisterAccess := by
  refine ⟨fun s g g' h v => ?_, fun s g h h' v => ?_⟩
  · refine ⟨hostReadSys_hostWriteSys s g g' v, hostReadSys64_hostWriteSys s g h v, ?_⟩
    obtain ⟨y, hwrite⟩ := hostWriteSys_eq_setSys s g v
    rw [hwrite]
    exact ⟨rfl, fun n => s.readReg_setSys y n, rfl⟩
  · refine ⟨hostReadSys64_hostWriteSys64 s h h' v, hostReadSys_hostWriteSys64 s g h v, ?_⟩
    obtain ⟨y, hwrite⟩ := hostWriteSys64_eq_setSys s h v
    rw [hwrite]
    exact ⟨rfl, fun n => s.readReg_setSys y n, rfl⟩

/-! ## The address map -/

/-- Settles O54: in each branch of the classifier the address's range is known. -/
theorem addressMapRanges : Obligations.AddressMapRanges := by
  intro a
  simp only [classify]
  split_ifs <;> simp only [true_iff, false_iff] <;> omega

end Sys2Proof.Machine
end
